-- ==== Sys2Proof/Word.lean ====
section
/-! DEFINITION. The words of the FPW: bytes, RGB565 colours, 16-bit registers and the 96-bit command word. -/

namespace Sys2Proof

/-- One byte of the framebuffer or of a transport payload (R31, R54). -/
abbrev Byte := BitVec 8

/-- A 16-bit RGB565 colour: red `[15:11]`, green `[10:5]`, blue `[4:0]` (R12, R25). -/
abbrev Color := BitVec 16

/-- The 96-bit word on the command port (R70). -/
abbrev Command := BitVec 96

/-- A pixel position `(x, y)`, exact integers that never wrap (R11). -/
abbrev Point := Nat × Nat

end Sys2Proof
end

