-- ==== Sys2Proof/Syntax.lean ====
section
/-! DEFINITION. The commands of the FPW, one constructor per row of spec/opcode_table.json (R73), the rows' opcodes
and the formats of the command word (R72). -/

namespace Sys2Proof

/-- A command with its operands (R72 to R76). Coordinates, lengths and sizes are the unsigned integers R74 reads from
16-bit fields, colours are taken bit for bit, channels are 8-bit (R76) and `flag` is the on/off bit (R75). -/
inductive Instr where
  | nop
  | setPixel (x y : Nat) (color : Color)
  | fillColor (color : Color)
  | rectFilled (x y w h : Nat) (color : Color)
  | rectColor (x1 y1 x2 y2 : Nat) (color : Color)
  | hlineColor (x y length : Nat) (color : Color)
  | vlineColor (x y length : Nat) (color : Color)
  | lineColor (x1 y1 x2 y2 : Nat) (color : Color)
  | drawPixel (x y : Nat) (flag : Bool)
  | fill (flag : Bool)
  | drawRect (x1 y1 x2 y2 : Nat) (flag : Bool)
  | drawHline (x y length : Nat) (flag : Bool)
  | drawVline (x y length : Nat) (flag : Bool)
  | drawLine (x1 y1 x2 y2 : Nat) (flag : Bool)
  | rgb565 (r g b : Byte)
  | readPixel (x y : Nat)
  | getWidth
  | getHeight
  | setFg (color : Color)
  | setBg (color : Color)
  | setAccent (color : Color)
  | setTheme (fg bg accent : Color)
  | getFg
  | getBg
  | getAccent
  | update
  | clearStatus
deriving DecidableEq, Repr

/-- The 27 rows of the opcode map (R73). -/
inductive Opcode where
  | nop | setPixel | fillColor | rectFilled | rectColor | hlineColor | vlineColor | lineColor
  | drawPixel | fill | drawRect | drawHline | drawVline | drawLine
  | rgb565 | readPixel | getWidth | getHeight
  | setFg | setBg | setAccent | setTheme | getFg | getBg | getAccent
  | update | clearStatus
deriving DecidableEq, Repr

/-- The 13 formats of the command word (R72). -/
inductive Format where
  | n | k | f | pxc | px | pxf | lnc | lnf | rwc | ppc | ppf | rgb | thm
deriving DecidableEq, Repr

end Sys2Proof
end

