-- ==== Sys2Proof/WellFormed.lean ====
section
/-! DEFINITION. Which commands have a command word: every coordinate, length and size fits its 16-bit field
(R11, R74, R82). Colours, channels and the flag fit by their types. -/

namespace Sys2Proof

/-- The operand fits a 16-bit field (R74). -/
def fits16 (n : Nat) : Bool := n < 65536

/-- Every operand of the command fits its field (R82). -/
def Instr.wellFormed : Instr → Bool
  | .nop => true
  | .setPixel x y _ => fits16 x && fits16 y
  | .fillColor _ => true
  | .rectFilled x y w h _ => fits16 x && fits16 y && fits16 w && fits16 h
  | .rectColor x1 y1 x2 y2 _ => fits16 x1 && fits16 y1 && fits16 x2 && fits16 y2
  | .hlineColor x y length _ => fits16 x && fits16 y && fits16 length
  | .vlineColor x y length _ => fits16 x && fits16 y && fits16 length
  | .lineColor x1 y1 x2 y2 _ => fits16 x1 && fits16 y1 && fits16 x2 && fits16 y2
  | .drawPixel x y _ => fits16 x && fits16 y
  | .fill _ => true
  | .drawRect x1 y1 x2 y2 _ => fits16 x1 && fits16 y1 && fits16 x2 && fits16 y2
  | .drawHline x y length _ => fits16 x && fits16 y && fits16 length
  | .drawVline x y length _ => fits16 x && fits16 y && fits16 length
  | .drawLine x1 y1 x2 y2 _ => fits16 x1 && fits16 y1 && fits16 x2 && fits16 y2
  | .rgb565 _ _ _ => true
  | .readPixel x y => fits16 x && fits16 y
  | .getWidth => true
  | .getHeight => true
  | .setFg _ => true
  | .setBg _ => true
  | .setAccent _ => true
  | .setTheme _ _ _ => true
  | .getFg => true
  | .getBg => true
  | .getAccent => true
  | .update => true
  | .clearStatus => true

end Sys2Proof
end

