-- ==== Sys2Proof/Decode.lean ====
section
/-! DEFINITION. The command word: its fields (R71), the opcode map (R73), the formats' checks (R72, R77, R78), the
decoder, total on every 96-bit word and rejecting by name (R81), and the encoder, written from the same tables. -/

namespace Sys2Proof

/-- The fields of the command word (R71). -/
structure Fields where
  op : BitVec 8
  flag : Bool
  rsv : BitVec 7
  color : BitVec 16
  a : BitVec 16
  b : BitVec 16
  c : BitVec 16
  d : BitVec 16
deriving DecidableEq, Repr

/-- The field table of R71, bit for bit. -/
def unpack (w : Command) : Fields where
  op := w.extractLsb' 0 8
  flag := w.getLsbD 8
  rsv := w.extractLsb' 9 7
  color := w.extractLsb' 16 16
  a := w.extractLsb' 32 16
  b := w.extractLsb' 48 16
  c := w.extractLsb' 64 16
  d := w.extractLsb' 80 16

/-- The word with the given fields, `D` in the highest bits (R71, R84). -/
def pack (f : Fields) : Command :=
  f.d ++ f.c ++ f.b ++ f.a ++ f.color ++ f.rsv ++ BitVec.ofBool f.flag ++ f.op

/-- The OP value of each row (R73). -/
def Opcode.code : Opcode → BitVec 8
  | .nop => 0x00
  | .setPixel => 0x01
  | .fillColor => 0x02
  | .rectFilled => 0x03
  | .rectColor => 0x04
  | .hlineColor => 0x05
  | .vlineColor => 0x06
  | .lineColor => 0x07
  | .drawPixel => 0x11
  | .fill => 0x12
  | .drawRect => 0x14
  | .drawHline => 0x15
  | .drawVline => 0x16
  | .drawLine => 0x17
  | .rgb565 => 0x20
  | .readPixel => 0x21
  | .getWidth => 0x22
  | .getHeight => 0x23
  | .setFg => 0x30
  | .setBg => 0x31
  | .setAccent => 0x32
  | .setTheme => 0x33
  | .getFg => 0x34
  | .getBg => 0x35
  | .getAccent => 0x36
  | .update => 0x40
  | .clearStatus => 0x41

/-- The format of each row (R73). -/
def Opcode.format : Opcode → Format
  | .nop => .n
  | .setPixel => .pxc
  | .fillColor => .k
  | .rectFilled => .rwc
  | .rectColor => .ppc
  | .hlineColor => .lnc
  | .vlineColor => .lnc
  | .lineColor => .ppc
  | .drawPixel => .pxf
  | .fill => .f
  | .drawRect => .ppf
  | .drawHline => .lnf
  | .drawVline => .lnf
  | .drawLine => .ppf
  | .rgb565 => .rgb
  | .readPixel => .px
  | .getWidth => .n
  | .getHeight => .n
  | .setFg => .k
  | .setBg => .k
  | .setAccent => .k
  | .setTheme => .thm
  | .getFg => .n
  | .getBg => .n
  | .getAccent => .n
  | .update => .n
  | .clearStatus => .n

/-- The rows in the table's order (R73). -/
def Opcode.all : List Opcode :=
  [.nop, .setPixel, .fillColor, .rectFilled, .rectColor, .hlineColor, .vlineColor, .lineColor,
   .drawPixel, .fill, .drawRect, .drawHline, .drawVline, .drawLine,
   .rgb565, .readPixel, .getWidth, .getHeight,
   .setFg, .setBg, .setAccent, .setTheme, .getFg, .getBg, .getAccent, .update, .clearStatus]

/-- The row an OP value selects; `none` for every value R73 does not list (R78). -/
def Opcode.ofCode (op : BitVec 8) : Option Opcode := Opcode.all.find? (fun o => o.code == op)

/-- The format reads FLAG, so FLAG may be 1: the last column but one of R72. -/
def Format.readsFlag : Format → Bool
  | .f | .pxf | .lnf | .ppf => true
  | .n | .k | .pxc | .px | .lnc | .rwc | .ppc | .rgb | .thm => false

/-- The high byte of a 16-bit field, which format RGB requires to be 0 (R77). -/
def highByte (v : BitVec 16) : BitVec 8 := v.extractLsb' 8 8

/-- The low byte of a 16-bit field, a channel of format RGB (R76). -/
def lowByte (v : BitVec 16) : BitVec 8 := v.extractLsb' 0 8

/-- Why a word is illegal: the checks of R77 and R78 by name. -/
inductive Illegal where
  | /-- OP is not in the opcode map (R78). -/ undefinedOpcode
  | /-- `RSV = cmd[15:9]` is not 0 (R77 item 1). -/ reservedBits
  | /-- FLAG is 1 in a format that requires 0 (R77 item 2). -/ flagNotAllowed
  | /-- A channel of format RGB has a non-zero high byte (R77 item 3). -/ channelTooWide
deriving DecidableEq, Repr

/-- What a word decodes to: exactly one command, or illegal (R81). -/
inductive Decoded where
  | legal (i : Instr)
  | illegal (why : Illegal)
deriving DecidableEq, Repr

/-- The field checks of R77 for a format, in the rule's order. -/
def checkFields (fmt : Format) (f : Fields) : Option Illegal :=
  if f.rsv ≠ 0 then some .reservedBits
  else if f.flag = true ∧ fmt.readsFlag = false then some .flagNotAllowed
  else if fmt = .rgb ∧ (highByte f.a ≠ 0 ∨ highByte f.b ≠ 0 ∨ highByte f.c ≠ 0) then some .channelTooWide
  else none

/-- The command of a row with the operands its format reads (R72, R74 to R76). -/
def assemble : Opcode → Fields → Instr
  | .nop, _ => .nop
  | .setPixel, f => .setPixel f.a.toNat f.b.toNat f.color
  | .fillColor, f => .fillColor f.color
  | .rectFilled, f => .rectFilled f.a.toNat f.b.toNat f.c.toNat f.d.toNat f.color
  | .rectColor, f => .rectColor f.a.toNat f.b.toNat f.c.toNat f.d.toNat f.color
  | .hlineColor, f => .hlineColor f.a.toNat f.b.toNat f.c.toNat f.color
  | .vlineColor, f => .vlineColor f.a.toNat f.b.toNat f.c.toNat f.color
  | .lineColor, f => .lineColor f.a.toNat f.b.toNat f.c.toNat f.d.toNat f.color
  | .drawPixel, f => .drawPixel f.a.toNat f.b.toNat f.flag
  | .fill, f => .fill f.flag
  | .drawRect, f => .drawRect f.a.toNat f.b.toNat f.c.toNat f.d.toNat f.flag
  | .drawHline, f => .drawHline f.a.toNat f.b.toNat f.c.toNat f.flag
  | .drawVline, f => .drawVline f.a.toNat f.b.toNat f.c.toNat f.flag
  | .drawLine, f => .drawLine f.a.toNat f.b.toNat f.c.toNat f.d.toNat f.flag
  | .rgb565, f => .rgb565 (lowByte f.a) (lowByte f.b) (lowByte f.c)
  | .readPixel, f => .readPixel f.a.toNat f.b.toNat
  | .getWidth, _ => .getWidth
  | .getHeight, _ => .getHeight
  | .setFg, f => .setFg f.color
  | .setBg, f => .setBg f.color
  | .setAccent, f => .setAccent f.color
  | .setTheme, f => .setTheme f.a f.b f.c
  | .getFg, _ => .getFg
  | .getBg, _ => .getBg
  | .getAccent, _ => .getAccent
  | .update, _ => .update
  | .clearStatus, _ => .clearStatus

/-- The decoder: OP first, then the field checks of that OP's format, then the operands (R81). Total; a word that is
no command is rejected by name. -/
def decode (w : Command) : Decoded :=
  let f := unpack w
  match Opcode.ofCode f.op with
  | none => .illegal .undefinedOpcode
  | some o =>
    match checkFields o.format f with
    | some why => .illegal why
    | none => .legal (assemble o f)

/-- The row of a command. -/
def Instr.opcode : Instr → Opcode
  | .nop => .nop
  | .setPixel _ _ _ => .setPixel
  | .fillColor _ => .fillColor
  | .rectFilled _ _ _ _ _ => .rectFilled
  | .rectColor _ _ _ _ _ => .rectColor
  | .hlineColor _ _ _ _ => .hlineColor
  | .vlineColor _ _ _ _ => .vlineColor
  | .lineColor _ _ _ _ _ => .lineColor
  | .drawPixel _ _ _ => .drawPixel
  | .fill _ => .fill
  | .drawRect _ _ _ _ _ => .drawRect
  | .drawHline _ _ _ _ => .drawHline
  | .drawVline _ _ _ _ => .drawVline
  | .drawLine _ _ _ _ _ => .drawLine
  | .rgb565 _ _ _ => .rgb565
  | .readPixel _ _ => .readPixel
  | .getWidth => .getWidth
  | .getHeight => .getHeight
  | .setFg _ => .setFg
  | .setBg _ => .setBg
  | .setAccent _ => .setAccent
  | .setTheme _ _ _ => .setTheme
  | .getFg => .getFg
  | .getBg => .getBg
  | .getAccent => .getAccent
  | .update => .update
  | .clearStatus => .clearStatus

/-- A row's word before its operands are set: the OP value, every other field 0 (R71). -/
def Opcode.blank (o : Opcode) : Fields := ⟨o.code, false, 0, 0, 0, 0, 0, 0⟩

/-- A coordinate, length or size as its 16-bit field (R74). -/
def field16 (n : Nat) : BitVec 16 := BitVec.ofNat 16 n

/-- The fields of a command, fields its format does not read left 0 (R72, R84). -/
def fieldsOf : Instr → Fields
  | .nop => Opcode.blank .nop
  | .setPixel x y k => { Opcode.blank .setPixel with a := field16 x, b := field16 y, color := k }
  | .fillColor k => { Opcode.blank .fillColor with color := k }
  | .rectFilled x y w h k =>
    { Opcode.blank .rectFilled with a := field16 x, b := field16 y, c := field16 w, d := field16 h, color := k }
  | .rectColor x1 y1 x2 y2 k =>
    { Opcode.blank .rectColor with a := field16 x1, b := field16 y1, c := field16 x2, d := field16 y2, color := k }
  | .hlineColor x y n k => { Opcode.blank .hlineColor with a := field16 x, b := field16 y, c := field16 n, color := k }
  | .vlineColor x y n k => { Opcode.blank .vlineColor with a := field16 x, b := field16 y, c := field16 n, color := k }
  | .lineColor x1 y1 x2 y2 k =>
    { Opcode.blank .lineColor with a := field16 x1, b := field16 y1, c := field16 x2, d := field16 y2, color := k }
  | .drawPixel x y on => { Opcode.blank .drawPixel with a := field16 x, b := field16 y, flag := on }
  | .fill on => { Opcode.blank .fill with flag := on }
  | .drawRect x1 y1 x2 y2 on =>
    { Opcode.blank .drawRect with a := field16 x1, b := field16 y1, c := field16 x2, d := field16 y2, flag := on }
  | .drawHline x y n on => { Opcode.blank .drawHline with a := field16 x, b := field16 y, c := field16 n, flag := on }
  | .drawVline x y n on => { Opcode.blank .drawVline with a := field16 x, b := field16 y, c := field16 n, flag := on }
  | .drawLine x1 y1 x2 y2 on =>
    { Opcode.blank .drawLine with a := field16 x1, b := field16 y1, c := field16 x2, d := field16 y2, flag := on }
  | .rgb565 r g b => { Opcode.blank .rgb565 with a := r.setWidth 16, b := g.setWidth 16, c := b.setWidth 16 }
  | .readPixel x y => { Opcode.blank .readPixel with a := field16 x, b := field16 y }
  | .getWidth => Opcode.blank .getWidth
  | .getHeight => Opcode.blank .getHeight
  | .setFg k => { Opcode.blank .setFg with color := k }
  | .setBg k => { Opcode.blank .setBg with color := k }
  | .setAccent k => { Opcode.blank .setAccent with color := k }
  | .setTheme fg bg accent => { Opcode.blank .setTheme with a := fg, b := bg, c := accent }
  | .getFg => Opcode.blank .getFg
  | .getBg => Opcode.blank .getBg
  | .getAccent => Opcode.blank .getAccent
  | .update => Opcode.blank .update
  | .clearStatus => Opcode.blank .clearStatus

/-- The word of a command, meaningful when the command is well formed. -/
def encode (i : Instr) : Command := pack (fieldsOf i)

/-- The command port's word from the low `nbits` bits of a number, the bits above them 0. -/
def commandOfBits (nbits w : Nat) : Command := BitVec.ofNat 96 (w % 2 ^ nbits)

/-- The command the decoder reads from a word numbered as spec/opcode_table.json numbers it. The FPW takes the word
whole on `cmd_word`, so there is no byte order to lay out (R70). -/
def decodeTableWord (nbits w : Nat) : Option Instr :=
  match decode (commandOfBits nbits w) with
  | .legal i => some i
  | .illegal _ => none

end Sys2Proof
end

