-- ==== Sys2Proof/Config.lean ====
section
/-! DEFINITION. The construction-time parameters `W` and `H` (R8 to R10, R32). The FPW has no other option (R13)
and the spec leaves no value to chance, so there is no free value here. -/

namespace Sys2Proof

/-- The dimensions of one FPW, held as its last column `W - 1` and last row `H - 1`, the two bytes the flush window
needs: a configuration outside `1 .. 256` cannot be written down (R8, R192). -/
structure Config where
  lastX : Fin 256
  lastY : Fin 256
deriving DecidableEq, Repr

/-- `W`, the framebuffer width in pixels (R8). -/
def Config.W (c : Config) : Nat := c.lastX.val + 1

/-- `H`, the framebuffer height in pixels (R8). -/
def Config.H (c : Config) : Nat := c.lastY.val + 1

/-- `FB_BYTES = W * H * 2` (R10). -/
def Config.fbBytes (c : Config) : Nat := c.W * c.H * 2

/-- The configuration of given dimensions; `none` outside `1 .. 256`, which R8 refuses. -/
def Config.ofDims (w h : Nat) : Option Config :=
  if hw : 1 ≤ w ∧ w ≤ 256 then
    if hh : 1 ≤ h ∧ h ≤ 256 then
      some ⟨⟨w - 1, by omega⟩, ⟨h - 1, by omega⟩⟩
    else none
  else none

/-- The reference configuration, 128 by 160 (R9). -/
def Config.reference : Config := ⟨127, 159⟩

end Sys2Proof
end

