-- ==== Sys2Proof/Machine/State.lean ====
section
/-! DEFINITION. The state of the FPW (R20), the host's and the transport's inputs, the reasons a step can stop, and
the state after reset (R41). -/

namespace Sys2Proof.Machine

/-- The framebuffer's bytes, as the list of those that do not read as an unlisted byte does, addresses strictly rising
(log entry 6). -/
abbrev Memory := List Host.Cell

/-- What a byte of FB that is not listed reads as: `0x00`, FB's content after reset (R41, R262). -/
def Memory.unlisted : Byte := 0x00

/-- A transport event (R31, R190). -/
inductive TxEvent where
  | /-- One command byte. -/ sendCommand (b : Byte)
  | /-- A payload of one or more bytes, in order. -/ sendData (bs : List Byte)
  | /-- The opaque panel initialization sequence, never expanded (R196). -/ panelInit
deriving DecidableEq, Repr

/-- The input ports at one step: what the host drives on `rst`, `cmd_valid` and `cmd_word`, and what the transport
drives on `tx_ready` (R38). -/
structure PortSample where
  rst : Bool
  cmdValid : Bool
  cmdWord : Command
  txReady : Bool
deriving DecidableEq, Repr

/-- The state of the FPW. The first eight fields are the architectural state and the constants of R20; `cmdReady` is
the ready output R41 gives a reset value (log entry 4); `txReady` and `port` are inputs, the model's own fields (log
entries 1 and 5). -/
structure State where
  /-- The constants `W` and `H` (R32). -/
  cfg : Config
  /-- FB, the framebuffer (R21). -/
  fb : Memory
  /-- FG, the foreground colour (R25). -/
  fg : Color
  /-- BG, the background colour (R26). -/
  bg : Color
  /-- ACC, the accent colour (R27). -/
  acc : Color
  /-- RESULT (R29). -/
  result : BitVec 16
  /-- STATUS: bit 0 is ILL, the other bits are reserved and 0 (R30). -/
  status : BitVec 16
  /-- TX, the events emitted since the last reset began (R31). -/
  tx : List TxEvent
  /-- `cmd_ready`: the FPW can accept a command (R38, R41). -/
  cmdReady : Bool
  /-- `tx_ready` at the edge the step has come to: the transport accepts the beats it is sent (R38, R40). -/
  txReady : Bool
  /-- What the input ports will carry, the next sample first (R38, R42). -/
  port : List PortSample
deriving DecidableEq, Repr

/-- Why the machine stops. -/
inductive Fault where
  | /-- Raised by UPDATE and by the reset sequence when the downstream transport accepts at no edge of the input,
    and for UPDATE no reset comes either: the executor is stuck, not finished (R40, R274). Safe: no state follows. -/ transportStalled
deriving DecidableEq, Repr

/-- Why the model gives no meaning. -/
inductive Refusal where
  | /-- Raised by a dispatch arm whose instruction has no meaning yet; no arm does. Safe. -/
    notModelled (mnemonic : String)
  | /-- Raised by `construct` for dimensions outside `1 .. 256` (R8). Safe: the spec refuses them. -/
    badConfiguration
deriving DecidableEq, Repr

/-- The state at the end of the reset sequence of an FPW with the given dimensions (R41, R263), no input pending. -/
def State.resetWith (c : Config) : State where
  cfg := c
  fb := []
  fg := 0xFFFF
  bg := 0x0000
  acc := 0x07FF
  result := 0x0000
  status := 0x0000
  tx :=
    [.panelInit,
     .sendCommand 0x2A, .sendData [0x00, 0x00, 0x00, BitVec.ofNat 8 (c.W - 1)],
     .sendCommand 0x2B, .sendData [0x00, 0x00, 0x00, BitVec.ofNat 8 (c.H - 1)],
     .sendCommand 0x2C, .sendData (List.replicate c.fbBytes 0x00)]
  cmdReady := true
  txReady := true
  port := []

/-- The machine right after reset, in the reference configuration (R9, R41). -/
def State.reset : State := State.resetWith Config.reference

end Sys2Proof.Machine
end

