-- ==== Sys2Proof/Machine/Ops.lean ====
section
/-! DEFINITION. The named operations of the machine: the bytes and pixels of FB (R15, R22, R54), the register writes,
the transport (R190), taking the one exception (R241) and the reset sequence (R261). There is no return from an
exception (R246). -/

namespace Sys2Proof.Machine

/-! ### Bytes of the framebuffer -/

/-- The canonical form from an address on: addresses strictly rising, no byte listed that reads so unlisted. -/
def Memory.wfFrom : Nat → Memory → Bool
  | _, [] => true
  | lo, (k, b) :: m => decide (lo ≤ k) && decide (b ≠ Memory.unlisted) && Memory.wfFrom (k + 1) m

/-- The canonical form of FB's list. -/
def Memory.wf (m : Memory) : Bool := Memory.wfFrom 0 m

/-- Every listed byte lies in an FB of `n` bytes. -/
def Memory.within (n : Nat) (m : Memory) : Bool := m.all (fun c => decide (c.1 < n))

/-- `FB[a]` (R15). -/
def Memory.read : Memory → Nat → Byte
  | [], _ => Memory.unlisted
  | (k, b) :: m, a => if a = k then b else if a < k then Memory.unlisted else Memory.read m a

/-- A byte put before a list, unless it reads so unlisted. -/
def Memory.cons (a : Nat) (v : Byte) (m : Memory) : Memory :=
  if v = Memory.unlisted then m else (a, v) :: m

/-- The listed bytes below an address. -/
def Memory.under (a : Nat) (m : Memory) : Memory := m.takeWhile fun c => decide (c.1 < a)

/-- The listed bytes from an address on. -/
def Memory.fromOn (a : Nat) (m : Memory) : Memory := m.dropWhile fun c => decide (c.1 < a)

/-- A list without its first cell if that lies at or below `a`. -/
def Memory.dropHead (a : Nat) : Memory → Memory
  | [] => []
  | (k, b) :: m => if k ≤ a then m else (k, b) :: m

/-- `MemRead(a, n)`: the `n` bytes from `a` on, in index order (R15). The list is walked once. -/
def Memory.readBytes : Memory → Nat → Nat → List Byte
  | _, _, 0 => []
  | m, a, n + 1 => m.read a :: Memory.readBytes (m.dropHead a) (a + 1) n

/-! ### Pixels -/

/-- `c[15:8]`, stored at the even index (R51). -/
def hiByte (c : Color) : Byte := c.extractLsb' 8 8

/-- `c[7:0]`, stored at the odd index (R51). -/
def loByte (c : Color) : Byte := c.extractLsb' 0 8

/-- `y * W + x`, the number of a pixel, exact (R23). -/
def pixNumber (c : Config) (x y : Nat) : Nat := y * c.W + x

/-- `i = (y * W + x) * 2`, the byte index of a pixel (R22). -/
def pixIndex (c : Config) (x y : Nat) : Nat := pixNumber c x y * 2

/-- The bounds check, the one place bounds are enforced (R100, R101). -/
def inRange (c : Config) (x y : Nat) : Bool := decide (x < c.W) && decide (y < c.H)

/-- `Pix(x, y) = {FB[i], FB[i+1]}` (R22). -/
def Memory.pix (c : Config) (m : Memory) (x y : Nat) : Color :=
  m.read (pixIndex c x y) ++ m.read (pixIndex c x y + 1)

/-- A number put into a strictly rising list. -/
def insertNumber (n : Nat) : List Nat → List Nat
  | [] => [n]
  | i :: is => if n < i then n :: i :: is else if n = i then i :: is else i :: insertNumber n is

/-- The pixels that plotting a list of points writes, as rising pixel numbers: a point outside the buffer is silently
clipped (R101, R102). -/
def plotted (c : Config) (ps : List Point) : List Nat :=
  ps.foldr (fun p is => if inRange c p.1 p.2 then insertNumber (pixNumber c p.1 p.2) is else is) []

/-- Both bytes of each pixel of a rising list of pixel numbers, high byte first: `FB[2i] <- k[15:8]`,
`FB[2i+1] <- k[7:0]` (R54, R101). One pass over FB's list: a command writes one colour, so only the set of pixels
counts (R55, D29; log entry 7). -/
def Memory.paint (k : Color) : List Nat → Memory → Memory
  | [], m => m
  | i :: is, m =>
    m.under (2 * i) ++
      Memory.cons (2 * i) (hiByte k)
        (Memory.cons (2 * i + 1) (loByte k) (Memory.paint k is (m.fromOn (2 * i + 2))))

/-! ### Registers and framebuffer of the state -/

/-- `FB[a]` of the state. -/
def State.byte (s : State) (a : Nat) : Byte := s.fb.read a

/-- `Pix(x, y)` of the state (R22). -/
def State.pix (s : State) (x y : Nat) : Color := s.fb.pix s.cfg x y

/-- `PlotPixel` at every point of a list in one colour, each point clipped on its own: FB and nothing else (R100 to
R102, R177). -/
def State.plotAll (s : State) (ps : List Point) (k : Color) : State :=
  { s with fb := s.fb.paint k (plotted s.cfg ps) }

/-- `PlotPixel(x, y, k)` (R101). -/
def State.plotPixel (s : State) (x y : Nat) (k : Color) : State := s.plotAll [(x, y)] k

/-- Every pixel of FB becomes `k`: pixel numbers `0 .. W*H - 1`, so no bounds check (R140, R262). -/
def State.fillAll (s : State) (k : Color) : State :=
  { s with fb := s.fb.paint k (List.range' 0 (s.cfg.W * s.cfg.H)) }

/-- `RESULT <- v` (R29). -/
def State.setResult (s : State) (v : BitVec 16) : State := { s with result := v }

/-- `FG <- v` (R25). -/
def State.setFg (s : State) (v : Color) : State := { s with fg := v }

/-- `BG <- v` (R26). -/
def State.setBg (s : State) (v : Color) : State := { s with bg := v }

/-- `ACC <- v` (R27). -/
def State.setAcc (s : State) (v : Color) : State := { s with acc := v }

/-- `STATUS <- v` (R30). -/
def State.setStatus (s : State) (v : BitVec 16) : State := { s with status := v }

/-! ### Transport -/

/-- `Emit` for each event of a list, in order (R15, R60). -/
def State.emit (s : State) (es : List TxEvent) : State := { s with tx := s.tx ++ es }

/-- The payload of an address-set command: `[0x00, 0x00, 0x00, (dim - 1)[7:0]]` (R192). -/
def windowPayload (dim : Nat) : List Byte := [0x00, 0x00, 0x00, BitVec.ofNat 8 (dim - 1)]

/-- The six events of one flush (R191), the pixel payload being FB in byte-index order (R193). -/
def State.flushEvents (s : State) : List TxEvent :=
  [.sendCommand 0x2A, .sendData (windowPayload s.cfg.W),
   .sendCommand 0x2B, .sendData (windowPayload s.cfg.H),
   .sendCommand 0x2C, .sendData (s.fb.readBytes 0 s.cfg.fbBytes)]

/-- What a step that emits can do: the transport accepts every beat, or the executor is stuck (R40, R190). -/
def State.transmitted (s : State) (t : State) : Host.Outcome State Fault Refusal :=
  if s.txReady then .next t else .fault .transportStalled

/-! ### The exception and reset -/

/-- Taking ILLEGAL_COMMAND: `STATUS[0] <- 1` and nothing else (R240, R241). No state is saved and no control moves
(R245). -/
def State.raiseIllegal (s : State) : State := s.setStatus (s.status ||| 0x0001)

/-- The reset sequence, one transition (R261): the trace restarts with PanelInit, the default theme is set, RESULT and
STATUS are cleared, FB is cleared to BG, the frame is flushed once, the FPW is ready. -/
def State.resetSequence (s : State) : State :=
  let s := { s with tx := [] }
  let s := s.emit [.panelInit]
  let s := ((s.setFg 0xFFFF).setBg 0x0000).setAcc 0x07FF
  let s := (s.setResult 0x0000).setStatus 0x0000
  let s := s.fillAll s.bg
  let s := s.emit s.flushEvents
  { s with cmdReady := true }

/-- Reset at the edge that ends it: it does not end on a transport that does not accept (R266, R274). -/
def takeReset (s : State) : Host.Outcome State Fault Refusal := s.transmitted s.resetSequence

/-- Constructing an FPW of given dimensions and resetting it; dimensions outside `1 .. 256` are refused (R8). -/
def construct (w h : Nat) : Host.Outcome State Fault Refusal :=
  match Config.ofDims w h with
  | some c => .next (State.resetWith c)
  | none => .refused .badConfiguration

end Sys2Proof.Machine
end

