-- ==== Sys2Proof/Machine/Operands.lean ====
section
/-! DEFINITION. What the drawing commands make of their operands: the colour a flag resolves to (R120) and the points
each shape plots, in the order its rule loops (R141 to R144, R170 to R172). -/

namespace Sys2Proof.Machine

/-- `c = FLAG ? FG : BG` (R120); ACC is never the resolved colour. -/
def State.flagColor (s : State) (flag : Bool) : Color := if flag then s.fg else s.bg

/-- `for v in [a, b)` (R15). -/
def interval (a b : Nat) : List Nat := List.range' a (b - a)

/-- The points of a filled rectangle (R141), `x + w` and `y + h` exact, cut at the right and bottom edges. -/
def rectPoints (c : Config) (x y w h : Nat) : List Point :=
  (interval y (min (y + h) c.H)).flatMap fun row => (interval x (min (x + w) c.W)).map fun col => (col, row)

/-- `HLineFill(x, y, n)` (R143). -/
def hlinePoints (x y n : Nat) : List Point := (interval 0 n).map fun i => (x + i, y)

/-- `VLineFill(x, y, n)` (R144). -/
def vlinePoints (x y n : Nat) : List Point := (interval 0 n).map fun i => (x, y + i)

/-- `|a - b|` of two coordinates, exact (R11, R14). -/
def absDiff (a b : Nat) : Nat := (a - b) + (b - a)

/-- The four sides of a rectangle outline, each from the smaller coordinate on (R142). -/
def outlinePoints (x1 y1 x2 y2 : Nat) : List Point :=
  let xl := min x1 x2
  let yl := min y1 y2
  let wd := absDiff x2 x1 + 1
  let ht := absDiff y2 y1 + 1
  hlinePoints xl y1 wd ++ hlinePoints xl y2 wd ++ vlinePoints x1 yl ht ++ vlinePoints x2 yl ht

/-- The line set-up of R171, in exact integers. -/
structure LineSetup where
  x1 : Int
  y1 : Int
  x2 : Int
  y2 : Int
  dx : Int
  dy : Int
  sx : Int
  sy : Int
deriving DecidableEq, Repr

/-- The set-up for two endpoints (R171). -/
def lineSetup (x1 y1 x2 y2 : Nat) : LineSetup where
  x1 := x1
  y1 := y1
  x2 := x2
  y2 := y2
  dx := absDiff x2 x1
  dy := absDiff y2 y1
  sx := if x1 < x2 then 1 else -1
  sy := if y1 < y2 then 1 else -1

/-- The walk's working values at the top of an iteration (R172). -/
structure LineAt where
  x : Int
  y : Int
  err : Int
deriving DecidableEq, Repr

/-- `err = dx - dy; x = x1; y = y1` (R171). -/
def lineStart (l : LineSetup) : LineAt := ⟨l.x1, l.y1, l.dx - l.dy⟩

/-- `x == x2 and y == y2` (R172). -/
def LineAt.atEnd (l : LineSetup) (p : LineAt) : Bool := decide (p.x = l.x2) && decide (p.y = l.y2)

/-- One iteration's adjustments, both tests on the same `e2` and both strict (R172; log entry 9). -/
def LineAt.next (l : LineSetup) (p : LineAt) : LineAt :=
  let e2 := 2 * p.err
  let stepX := decide (e2 > -l.dy)
  let stepY := decide (e2 < l.dx)
  { x := if stepX then p.x + l.sx else p.x
    y := if stepY then p.y + l.sy else p.y
    err := p.err - (if stepX then l.dy else 0) + (if stepY then l.dx else 0) }

/-- The working values at the tops of at most `n` iterations, ending at the endpoint (R172). -/
def lineTrace (l : LineSetup) : Nat → LineAt → List LineAt
  | 0, _ => []
  | n + 1, p => p :: if p.atEnd l then [] else lineTrace l n (p.next l)

/-- The working values of the whole walk between two endpoints. The walk stops by itself after
`max(dx, dy) + 1` points (R174), which is the bound given here (log entry 8). -/
def lineWalk (x1 y1 x2 y2 : Nat) : List LineAt :=
  let l := lineSetup x1 y1 x2 y2
  lineTrace l (max (absDiff x2 x1) (absDiff y2 y1) + 1) (lineStart l)

/-- The points a line plots, in plotting order (R172); no coordinate of the walk is negative (R173). -/
def linePoints (x1 y1 x2 y2 : Nat) : List Point :=
  (lineWalk x1 y1 x2 y2).map fun p => (p.x.toNat, p.y.toNat)

end Sys2Proof.Machine
end

