-- ==== Sys2Proof/Machine/Boolean.lean ====
section
/-! DEFINITION. The boolean primitives (41_boolean.md): the flag resolves to FG or BG (R120), then the effect is that
of the explicit-colour command with the same operands. -/

namespace Sys2Proof.Machine

/-- DRAW_PIXEL (R121). -/
def execDrawPixel (x y : Nat) (flag : Bool) (s : State) : Host.Outcome State Fault Refusal :=
  .next (s.plotPixel x y (s.flagColor flag))

/-- FILL (R122). -/
def execFill (flag : Bool) (s : State) : Host.Outcome State Fault Refusal :=
  .next (s.fillAll (s.flagColor flag))

/-- DRAW_RECT, the outline (R123). -/
def execDrawRect (x1 y1 x2 y2 : Nat) (flag : Bool) (s : State) : Host.Outcome State Fault Refusal :=
  .next (s.plotAll (outlinePoints x1 y1 x2 y2) (s.flagColor flag))

/-- DRAW_HLINE (R124). -/
def execDrawHline (x y length : Nat) (flag : Bool) (s : State) : Host.Outcome State Fault Refusal :=
  .next (s.plotAll (hlinePoints x y length) (s.flagColor flag))

/-- DRAW_VLINE (R125). -/
def execDrawVline (x y length : Nat) (flag : Bool) (s : State) : Host.Outcome State Fault Refusal :=
  .next (s.plotAll (vlinePoints x y length) (s.flagColor flag))

/-- DRAW_LINE (R126). -/
def execDrawLine (x1 y1 x2 y2 : Nat) (flag : Bool) (s : State) : Host.Outcome State Fault Refusal :=
  .next (s.plotAll (linePoints x1 y1 x2 y2) (s.flagColor flag))

end Sys2Proof.Machine
end

