-- ==== Sys2Proof/Machine/Flags.lean ====
section
/-! DEFINITION. The one status flag, `STATUS[0]` (ILL), and the reserved bits of STATUS (R30, R35). There are no
condition codes. -/

namespace Sys2Proof.Machine

/-- `STATUS[0]`, ILL (R30). -/
def State.ill (s : State) : Bool := s.status.getLsbD 0

/-- `STATUS[15:1]`, reserved (R30). -/
def State.statusReserved (s : State) : BitVec 15 := s.status.extractLsb' 1 15

/-- `STATUS <- 0x0000` (R226). -/
def State.clearStatus (s : State) : State := s.setStatus 0x0000

end Sys2Proof.Machine
end

