-- ==== Sys2Proof/Machine/ColorTheme.lean ====
section
/-! DEFINITION. The RGB565 encoder, the theme registers, the accessors and the control commands (45_color_theme.md). -/

namespace Sys2Proof.Machine

/-- `((r & 0xF8) << 8) | ((g & 0xFC) << 3) | (b >> 3)`, 16 bits wide (R210). -/
def rgb565 (r g b : Byte) : Color :=
  ((r &&& 0xF8).setWidth 16 <<< 8) ||| ((g &&& 0xFC).setWidth 16 <<< 3) ||| (b >>> 3).setWidth 16

/-- RGB565 (R210). -/
def execRgb565 (r g b : Byte) (s : State) : Host.Outcome State Fault Refusal :=
  .next (s.setResult (rgb565 r g b))

/-- SET_FG (R216). -/
def execSetFg (color : Color) (s : State) : Host.Outcome State Fault Refusal := .next (s.setFg color)

/-- SET_BG (R217). -/
def execSetBg (color : Color) (s : State) : Host.Outcome State Fault Refusal := .next (s.setBg color)

/-- SET_ACCENT (R218). -/
def execSetAccent (color : Color) (s : State) : Host.Outcome State Fault Refusal := .next (s.setAcc color)

/-- SET_THEME (R219), one step for the three registers. -/
def execSetTheme (fg bg accent : Color) (s : State) : Host.Outcome State Fault Refusal :=
  .next (((s.setFg fg).setBg bg).setAcc accent)

/-- GET_FG (R220). -/
def execGetFg (s : State) : Host.Outcome State Fault Refusal := .next (s.setResult s.fg)

/-- GET_BG (R221). -/
def execGetBg (s : State) : Host.Outcome State Fault Refusal := .next (s.setResult s.bg)

/-- GET_ACCENT (R222). -/
def execGetAccent (s : State) : Host.Outcome State Fault Refusal := .next (s.setResult s.acc)

/-- GET_WIDTH (R223): `zext_16(W)`. -/
def execGetWidth (s : State) : Host.Outcome State Fault Refusal := .next (s.setResult (BitVec.ofNat 16 s.cfg.W))

/-- GET_HEIGHT (R224): `zext_16(H)`. -/
def execGetHeight (s : State) : Host.Outcome State Fault Refusal := .next (s.setResult (BitVec.ofNat 16 s.cfg.H))

/-- NOP (R225). -/
def execNop (s : State) : Host.Outcome State Fault Refusal := .next s

/-- CLEAR_STATUS (R226). -/
def execClearStatus (s : State) : Host.Outcome State Fault Refusal := .next s.clearStatus

end Sys2Proof.Machine
end

