-- ==== Sys2Proof/Machine/FillRect.lean ====
section
/-! DEFINITION. The fill, rectangle and axis-line unit (42_fill_rect.md). -/

namespace Sys2Proof.Machine

/-- FILL_COLOR (R140). -/
def execFillColor (color : Color) (s : State) : Host.Outcome State Fault Refusal :=
  .next (s.fillAll color)

/-- RECT_FILLED (R141). -/
def execRectFilled (x y w h : Nat) (color : Color) (s : State) : Host.Outcome State Fault Refusal :=
  .next (s.plotAll (rectPoints s.cfg x y w h) color)

/-- RECT_COLOR (R142). -/
def execRectColor (x1 y1 x2 y2 : Nat) (color : Color) (s : State) : Host.Outcome State Fault Refusal :=
  .next (s.plotAll (outlinePoints x1 y1 x2 y2) color)

/-- HLINE_COLOR (R143). -/
def execHlineColor (x y length : Nat) (color : Color) (s : State) : Host.Outcome State Fault Refusal :=
  .next (s.plotAll (hlinePoints x y length) color)

/-- VLINE_COLOR (R144). -/
def execVlineColor (x y length : Nat) (color : Color) (s : State) : Host.Outcome State Fault Refusal :=
  .next (s.plotAll (vlinePoints x y length) color)

end Sys2Proof.Machine
end

