-- ==== Sys2Proof/Machine/Flush.lean ====
section
/-! DEFINITION. The flush: UPDATE (44_flush.md), the only command that reaches the transport (R195). -/

namespace Sys2Proof.Machine

/-- UPDATE (R191): the six events of one flush, or stuck on a transport that does not accept (R40). An
UPDATE that waits for the transport is brought to the edge that ends the wait first (`runUpdate`). -/
def execUpdate (s : State) : Host.Outcome State Fault Refusal :=
  s.transmitted (s.emit s.flushEvents)

end Sys2Proof.Machine
end

