-- ==== Sys2Proof/Machine/Line.lean ====
section
/-! DEFINITION. The line rasterizer: LINE_COLOR (43_line.md). -/

namespace Sys2Proof.Machine

/-- LINE_COLOR (R170): the walk's points, each clipped on its own (R177). -/
def execLineColor (x1 y1 x2 y2 : Nat) (color : Color) (s : State) : Host.Outcome State Fault Refusal :=
  .next (s.plotAll (linePoints x1 y1 x2 y2) color)

end Sys2Proof.Machine
end

