-- ==== Sys2Proof/Machine/Pixel.lean ====
section
/-! DEFINITION. The pixel writer: SET_PIXEL and READ_PIXEL (40_pixel.md). -/

namespace Sys2Proof.Machine

/-- SET_PIXEL (R101). -/
def execSetPixel (x y : Nat) (color : Color) (s : State) : Host.Outcome State Fault Refusal :=
  .next (s.plotPixel x y color)

/-- READ_PIXEL (R104): `0x0000` outside the buffer, no flag. -/
def execReadPixel (x y : Nat) (s : State) : Host.Outcome State Fault Refusal :=
  .next (s.setResult (if inRange s.cfg x y then s.pix x y else 0x0000))

end Sys2Proof.Machine
end

