-- ==== Sys2Proof/Machine/Dispatch.lean ====
section
/-! DEFINITION. One arm per command (R73): the effect of an accepted, legal command. -/

namespace Sys2Proof.Machine

def exec (i : Instr) (s : State) : Host.Outcome State Fault Refusal :=
  match i with
  | .nop => Sys2Proof.Machine.execNop s
  | .setPixel x y color => Sys2Proof.Machine.execSetPixel x y color s
  | .fillColor color => Sys2Proof.Machine.execFillColor color s
  | .rectFilled x y w h color => Sys2Proof.Machine.execRectFilled x y w h color s
  | .rectColor x1 y1 x2 y2 color => Sys2Proof.Machine.execRectColor x1 y1 x2 y2 color s
  | .hlineColor x y length color => Sys2Proof.Machine.execHlineColor x y length color s
  | .vlineColor x y length color => Sys2Proof.Machine.execVlineColor x y length color s
  | .lineColor x1 y1 x2 y2 color => Sys2Proof.Machine.execLineColor x1 y1 x2 y2 color s
  | .drawPixel x y flag => Sys2Proof.Machine.execDrawPixel x y flag s
  | .fill flag => Sys2Proof.Machine.execFill flag s
  | .drawRect x1 y1 x2 y2 flag => Sys2Proof.Machine.execDrawRect x1 y1 x2 y2 flag s
  | .drawHline x y length flag => Sys2Proof.Machine.execDrawHline x y length flag s
  | .drawVline x y length flag => Sys2Proof.Machine.execDrawVline x y length flag s
  | .drawLine x1 y1 x2 y2 flag => Sys2Proof.Machine.execDrawLine x1 y1 x2 y2 flag s
  | .rgb565 r g b => Sys2Proof.Machine.execRgb565 r g b s
  | .readPixel x y => Sys2Proof.Machine.execReadPixel x y s
  | .getWidth => Sys2Proof.Machine.execGetWidth s
  | .getHeight => Sys2Proof.Machine.execGetHeight s
  | .setFg color => Sys2Proof.Machine.execSetFg color s
  | .setBg color => Sys2Proof.Machine.execSetBg color s
  | .setAccent color => Sys2Proof.Machine.execSetAccent color s
  | .setTheme fg bg accent => Sys2Proof.Machine.execSetTheme fg bg accent s
  | .getFg => Sys2Proof.Machine.execGetFg s
  | .getBg => Sys2Proof.Machine.execGetBg s
  | .getAccent => Sys2Proof.Machine.execGetAccent s
  | .update => Sys2Proof.Machine.execUpdate s
  | .clearStatus => Sys2Proof.Machine.execClearStatus s

end Sys2Proof.Machine
end

