-- ==== Sys2Proof/Machine/Accept.lean ====
section
/-! DEFINITION. What one clock edge does with the input ports (R38): reset, an accepted command, or nothing; and what an
executor that waits for the transport does with the edges it is busy at (R40, R244, R264). -/

namespace Sys2Proof.Machine

/-- The state in which a sample's edge happens: the sample is taken and its `tx_ready` holds. -/
def State.takeSample (s : State) (p : PortSample) (rest : List PortSample) : State :=
  { s with txReady := p.txReady, port := rest }

/-- The input from the first edge on that ends the wait of an executing UPDATE: the transport accepts, or `rst` is 1.
The edges passed over find `cmd_ready` 0, so no command is accepted at them (R38; log entry 5). -/
def untilAcceptOrReset (ps : List PortSample) : List PortSample := ps.dropWhile fun q => !(q.rst || q.txReady)

/-- The input from the first edge on at which the transport accepts, so that a running reset ends (R266). -/
def untilAccept (ps : List PortSample) : List PortSample := ps.dropWhile fun q => !q.txReady

/-- Reset from the edge of `s` on: the sequence of R261 on an accepting transport, at this edge or at the first later one
that has it; with none, stuck (R266, R274). Whatever the edges in between carry, `rst` among it, reset goes on (log
entries 5 and 18). -/
def runReset (s : State) : Host.Outcome State Fault Refusal :=
  if s.txReady then takeReset s
  else
    match untilAccept s.port with
    | [] => takeReset s
    | q :: rest => takeReset (s.takeSample q rest)

/-- UPDATE from the edge of `s` on: it completes on an accepting transport, at this edge or at the first later one that
has it, unless `rst` comes first and abandons it (R244, R264); with neither, stuck (R40). -/
def runUpdate (s : State) : Host.Outcome State Fault Refusal :=
  if s.txReady then exec .update s
  else
    match untilAcceptOrReset s.port with
    | [] => exec .update s
    | q :: rest => if q.rst then runReset (s.takeSample q rest) else exec .update (s.takeSample q rest)

/-- An accepted, legal command: UPDATE alone reaches the transport (R195) and so can be made to wait. -/
def runCommand (i : Instr) (s : State) : Host.Outcome State Fault Refusal :=
  if i = .update then runUpdate s else exec i s

/-- A command word the FPW accepts: a legal one has its effect, an illegal one takes ILLEGAL_COMMAND and is consumed
(R81, R241, R244). -/
def acceptCommand (w : Command) (s : State) : Host.Outcome State Fault Refusal :=
  match decode w with
  | .legal i => runCommand i s
  | .illegal _ => .next s.raiseIllegal

/-- One edge: `rst` wins over a command (R244), a command is accepted when `cmd_valid` and `cmd_ready` are 1 (R38),
otherwise nothing happens. DESIGN CHOICE: where `rst` is 1 at several samples, each runs the reset sequence anew (log
entry 18). -/
def clockEdge (p : PortSample) (s : State) : Host.Outcome State Fault Refusal :=
  if p.rst then runReset s
  else if p.cmdValid && s.cmdReady then acceptCommand p.cmdWord s
  else .next s

/-- The sample of a host that presents a command to an accepting transport. -/
def presenting (w : Command) : PortSample := ⟨false, true, w, true⟩

end Sys2Proof.Machine
end

