-- ==== Sys2Proof/Machine/Step.lean ====
section
/-! DEFINITION. One step: the edge of the next sample of the input ports, and the edges at which the FPW is then busy
because the transport makes it wait; with no sample, the host presents nothing and the machine waits (R38, R42; log
entries 1, 2 and 5). The FPW fetches nothing (R34): a program is what the host presents. -/

namespace Sys2Proof.Machine

/-- One step of the FPW. -/
def step (s : State) : Host.Outcome State Fault Refusal :=
  match s.port with
  | [] => .next s
  | p :: rest => clockEdge p (s.takeSample p rest)

/-- The state in which the host presents the given command next and the FPW can accept it. -/
def State.withFetchWord (s : State) (nbits w : Nat) : State :=
  { s with cmdReady := true, port := presenting (commandOfBits nbits w) :: s.port }

end Sys2Proof.Machine
end

