-- ==== Sys2Proof/Machine/Asm.lean ====
section
/-! DEFINITION. The assembly language of the spec (R82) and its pseudo-instructions (R83): a source line to the
commands it stands for. Text is a list of characters. -/

namespace Sys2Proof.Machine

/-- The mnemonic of each row (R73). -/
def mnemonic : Opcode → String
  | .nop => "NOP"
  | .setPixel => "SET_PIXEL"
  | .fillColor => "FILL_COLOR"
  | .rectFilled => "RECT_FILLED"
  | .rectColor => "RECT_COLOR"
  | .hlineColor => "HLINE_COLOR"
  | .vlineColor => "VLINE_COLOR"
  | .lineColor => "LINE_COLOR"
  | .drawPixel => "DRAW_PIXEL"
  | .fill => "FILL"
  | .drawRect => "DRAW_RECT"
  | .drawHline => "DRAW_HLINE"
  | .drawVline => "DRAW_VLINE"
  | .drawLine => "DRAW_LINE"
  | .rgb565 => "RGB565"
  | .readPixel => "READ_PIXEL"
  | .getWidth => "GET_WIDTH"
  | .getHeight => "GET_HEIGHT"
  | .setFg => "SET_FG"
  | .setBg => "SET_BG"
  | .setAccent => "SET_ACCENT"
  | .setTheme => "SET_THEME"
  | .getFg => "GET_FG"
  | .getBg => "GET_BG"
  | .getAccent => "GET_ACCENT"
  | .update => "UPDATE"
  | .clearStatus => "CLEAR_STATUS"

/-- An operand of a source line: an unsigned number, or the colour of an expression `rgb(r, g, b)` (R82, R83). -/
inductive Operand where
  | number (n : Nat)
  | rgb (c : Color)
deriving DecidableEq, Repr

/-- A coordinate, length or size: a number that fits 16 bits (R82). -/
def Operand.coord : Operand → Option Nat
  | .number n => if fits16 n then some n else none
  | .rgb _ => none

/-- A colour: a number that fits 16 bits, or `rgb(r, g, b)` (R82, R83). -/
def Operand.color : Operand → Option Color
  | .number n => if fits16 n then some (BitVec.ofNat 16 n) else none
  | .rgb c => some c

/-- A channel: a number that fits 8 bits (R82). -/
def Operand.channel : Operand → Option Byte
  | .number n => if n < 256 then some (BitVec.ofNat 8 n) else none
  | .rgb _ => none

/-- A FLAG operand: `0` or `1` (R82). -/
def Operand.flag : Operand → Option Bool
  | .number 0 => some false
  | .number 1 => some true
  | _ => none

/-- The command of a row and its operands in the order of R72's "fields read" column; `none` when their number or
size is wrong (R82). -/
def commandOf : Opcode → List Operand → Option Instr
  | .nop, [] => some .nop
  | .setPixel, [x, y, k] => do return .setPixel (← x.coord) (← y.coord) (← k.color)
  | .fillColor, [k] => do return .fillColor (← k.color)
  | .rectFilled, [x, y, w, h, k] => do
    return .rectFilled (← x.coord) (← y.coord) (← w.coord) (← h.coord) (← k.color)
  | .rectColor, [x1, y1, x2, y2, k] => do
    return .rectColor (← x1.coord) (← y1.coord) (← x2.coord) (← y2.coord) (← k.color)
  | .hlineColor, [x, y, n, k] => do return .hlineColor (← x.coord) (← y.coord) (← n.coord) (← k.color)
  | .vlineColor, [x, y, n, k] => do return .vlineColor (← x.coord) (← y.coord) (← n.coord) (← k.color)
  | .lineColor, [x1, y1, x2, y2, k] => do
    return .lineColor (← x1.coord) (← y1.coord) (← x2.coord) (← y2.coord) (← k.color)
  | .drawPixel, [x, y, on] => do return .drawPixel (← x.coord) (← y.coord) (← on.flag)
  | .fill, [on] => do return .fill (← on.flag)
  | .drawRect, [x1, y1, x2, y2, on] => do
    return .drawRect (← x1.coord) (← y1.coord) (← x2.coord) (← y2.coord) (← on.flag)
  | .drawHline, [x, y, n, on] => do return .drawHline (← x.coord) (← y.coord) (← n.coord) (← on.flag)
  | .drawVline, [x, y, n, on] => do return .drawVline (← x.coord) (← y.coord) (← n.coord) (← on.flag)
  | .drawLine, [x1, y1, x2, y2, on] => do
    return .drawLine (← x1.coord) (← y1.coord) (← x2.coord) (← y2.coord) (← on.flag)
  | .rgb565, [r, g, b] => do return .rgb565 (← r.channel) (← g.channel) (← b.channel)
  | .readPixel, [x, y] => do return .readPixel (← x.coord) (← y.coord)
  | .getWidth, [] => some .getWidth
  | .getHeight, [] => some .getHeight
  | .setFg, [k] => do return .setFg (← k.color)
  | .setBg, [k] => do return .setBg (← k.color)
  | .setAccent, [k] => do return .setAccent (← k.color)
  | .setTheme, [fg, bg, accent] => do return .setTheme (← fg.color) (← bg.color) (← accent.color)
  | .getFg, [] => some .getFg
  | .getBg, [] => some .getBg
  | .getAccent, [] => some .getAccent
  | .update, [] => some .update
  | .clearStatus, [] => some .clearStatus
  | _, _ => none

/-- The operands of a command as numbers, in R72's order (R82). -/
def operandsOf : Instr → List Operand
  | .nop => []
  | .setPixel x y k => [.number x, .number y, .number k.toNat]
  | .fillColor k => [.number k.toNat]
  | .rectFilled x y w h k => [.number x, .number y, .number w, .number h, .number k.toNat]
  | .rectColor x1 y1 x2 y2 k => [.number x1, .number y1, .number x2, .number y2, .number k.toNat]
  | .hlineColor x y n k => [.number x, .number y, .number n, .number k.toNat]
  | .vlineColor x y n k => [.number x, .number y, .number n, .number k.toNat]
  | .lineColor x1 y1 x2 y2 k => [.number x1, .number y1, .number x2, .number y2, .number k.toNat]
  | .drawPixel x y on => [.number x, .number y, .number on.toNat]
  | .fill on => [.number on.toNat]
  | .drawRect x1 y1 x2 y2 on => [.number x1, .number y1, .number x2, .number y2, .number on.toNat]
  | .drawHline x y n on => [.number x, .number y, .number n, .number on.toNat]
  | .drawVline x y n on => [.number x, .number y, .number n, .number on.toNat]
  | .drawLine x1 y1 x2 y2 on => [.number x1, .number y1, .number x2, .number y2, .number on.toNat]
  | .rgb565 r g b => [.number r.toNat, .number g.toNat, .number b.toNat]
  | .readPixel x y => [.number x, .number y]
  | .getWidth => []
  | .getHeight => []
  | .setFg k => [.number k.toNat]
  | .setBg k => [.number k.toNat]
  | .setAccent k => [.number k.toNat]
  | .setTheme fg bg accent => [.number fg.toNat, .number bg.toNat, .number accent.toNat]
  | .getFg => []
  | .getBg => []
  | .getAccent => []
  | .update => []
  | .clearStatus => []

/-- The pseudo-instructions (R83). -/
inductive Pseudo where
  | themeDefault | clear | plot
deriving DecidableEq, Repr

/-- The name of a pseudo-instruction (R83). -/
def Pseudo.name : Pseudo → String
  | .themeDefault => "THEME_DEFAULT"
  | .clear => "CLEAR"
  | .plot => "PLOT"

/-- The expansion of a pseudo-instruction (R83). -/
def Pseudo.expand : Pseudo → List Operand → Option Instr
  | .themeDefault, [] => some (.setTheme 0xFFFF 0x0000 0x07FF)
  | .clear, [] => some (.fill false)
  | .plot, [x, y] => do return .drawPixel (← x.coord) (← y.coord) true
  | _, _ => none

/-- The command of a mnemonic or pseudo-instruction and its operands. -/
def commandNamed (name : List Char) (ops : List Operand) : Option Instr :=
  match Opcode.all.find? (fun o => (mnemonic o).toList == name) with
  | some o => commandOf o ops
  | none =>
    match [Pseudo.themeDefault, .clear, .plot].find? (fun p => p.name.toList == name) with
    | some p => p.expand ops
    | none => none

/-! ### Source text -/

/-- The tokens of a source line. -/
inductive Token where
  | word (cs : List Char)
  | number (n : Nat)
  | comma
  | open
  | close
deriving DecidableEq, Repr

/-- The value of a decimal digit. -/
def decDigit (c : Char) : Option Nat :=
  if '0' ≤ c ∧ c ≤ '9' then some (c.toNat - '0'.toNat) else none

/-- The value of a hexadecimal digit. -/
def hexDigit (c : Char) : Option Nat :=
  if '0' ≤ c ∧ c ≤ '9' then some (c.toNat - '0'.toNat)
  else if 'a' ≤ c ∧ c ≤ 'f' then some (c.toNat - 'a'.toNat + 10)
  else if 'A' ≤ c ∧ c ≤ 'F' then some (c.toNat - 'A'.toNat + 10)
  else none

/-- The number a list of digits stands for, after the digits worth `acc`. -/
def digitsValue (base : Nat) (digit : Char → Option Nat) : Nat → List Char → Option Nat
  | acc, [] => some acc
  | acc, c :: cs =>
    match digit c with
    | some d => digitsValue base digit (acc * base + d) cs
    | none => none

/-- A name or a number: a number starts with a digit and is decimal, or hexadecimal after `0x` (R82). -/
def lexeme : List Char → Option (List Token)
  | [] => some []
  | '0' :: 'x' :: c :: cs => (digitsValue 16 hexDigit 0 (c :: cs)).map fun n => [.number n]
  | c :: cs =>
    if (decDigit c).isSome then (digitsValue 10 decDigit 0 (c :: cs)).map fun n => [.number n]
    else some [.word (c :: cs)]

/-- A character of a name or a number. -/
def isNameChar (c : Char) : Bool :=
  (decide ('0' ≤ c) && decide (c ≤ '9')) || (decide ('a' ≤ c) && decide (c ≤ 'z'))
    || (decide ('A' ≤ c) && decide (c ≤ 'Z')) || c == '_'

/-- The token of a punctuation character, none for white space. -/
def punctuation (c : Char) : Option (List Token) :=
  if c == ',' then some [.comma]
  else if c == '(' then some [.open]
  else if c == ')' then some [.close]
  else if c == ' ' || c == '\t' then some []
  else none

/-- The tokens of a line, given the characters (last first) of a lexeme already begun; a comment begins with `;`
(R82). -/
def tokensFrom : List Char → List Char → Option (List Token)
  | pending, [] => lexeme pending.reverse
  | pending, c :: cs =>
    if isNameChar c then tokensFrom (c :: pending) cs
    else if c == ';' then lexeme pending.reverse
    else do return (← lexeme pending.reverse) ++ (← punctuation c) ++ (← tokensFrom [] cs)

/-- `rgb(r, g, b)` with 8-bit channels, by the formula of R210 (R83). -/
def rgbOperand (name : List Char) (r g b : Nat) : Option Operand :=
  if name == ['r', 'g', 'b'] && decide (r < 256) && decide (g < 256) && decide (b < 256) then
    some (.rgb (rgb565 (BitVec.ofNat 8 r) (BitVec.ofNat 8 g) (BitVec.ofNat 8 b)))
  else none

/-- Operands separated by commas (R82), at least one. -/
def operandList : List Token → Option (List Operand)
  | [.number n] => some [.number n]
  | [.word f, .open, .number r, .comma, .number g, .comma, .number b, .close] => do
    return [← rgbOperand f r g b]
  | .number n :: .comma :: ts => do return .number n :: (← operandList ts)
  | .word f :: .open :: .number r :: .comma :: .number g :: .comma :: .number b :: .close :: .comma :: ts => do
    return (← rgbOperand f r g b) :: (← operandList ts)
  | _ => none

/-- A source line: no command (a blank or comment line), or the one command it stands for; `none` when the line is
not of the syntax (R82). -/
def assembleLine (line : List Char) : Option (List Instr) := do
  match ← tokensFrom [] line with
  | [] => return []
  | [.word name] => return [← commandNamed name []]
  | .word name :: ts => return [← commandNamed name (← operandList ts)]
  | _ => none

end Sys2Proof.Machine
end

