-- ==== Sys2Proof/Machine/Ports.lean ====
section
/-! DEFINITION. The output ports (R38, R39): `cmd_ready`, `result`, `status`, and the beats by which the transport
port carries TX. -/

namespace Sys2Proof.Machine

/-- What the host reads between commands (R38, R39). -/
structure PortOutputs where
  cmdReady : Bool
  result : BitVec 16
  status : BitVec 16
deriving DecidableEq, Repr

/-- `rst` as the host drives it towards the next edge. -/
def State.rstNext (s : State) : Bool :=
  match s.port with
  | [] => false
  | p :: _ => p.rst

/-- The output ports in a state (R39); while `rst` is 1, `cmd_ready` is 0 (R261). -/
def State.outputs (s : State) : PortOutputs := ⟨s.cmdReady && !s.rstNext, s.result, s.status⟩

/-- One beat of the transport port, with the signals R38 gives a meaning to (log entry 12). -/
inductive TxBeat where
  | /-- `tx_kind = 0`: a command byte. -/ command (b : Byte)
  | /-- `tx_kind = 1`: a data byte and `tx_last`. -/ data (b : Byte) (last : Bool)
  | /-- `tx_kind = 2`: the PanelInit marker. -/ panelInit
deriving DecidableEq, Repr

/-- `tx_kind` (R38). -/
def TxBeat.kind : TxBeat → BitVec 2
  | .command _ => 0
  | .data _ _ => 1
  | .panelInit => 2

/-- The beats of a payload: one byte a beat, `tx_last` on the last one (R38). -/
def dataBeats : List Byte → List TxBeat
  | [] => []
  | [b] => [.data b true]
  | b :: c :: bs => .data b false :: dataBeats (c :: bs)

/-- The beats of an event (R38). -/
def TxEvent.beats : TxEvent → List TxBeat
  | .sendCommand b => [.command b]
  | .sendData bs => dataBeats bs
  | .panelInit => [.panelInit]

/-- The beats that carry a trace, in order (R60). -/
def beatsOf (es : List TxEvent) : List TxBeat := es.flatMap TxEvent.beats

/-- The events a stream of beats stands for, given the bytes of an unfinished payload: data beats up to and including
`tx_last` form one `SendData`, each command beat one `SendCommand` (R38). DESIGN CHOICE: data beats that no `tx_last`
ends, before another kind of beat or at the end of the stream, stand for no event (log entry 17). -/
def eventsFrom : List Byte → List TxBeat → List TxEvent
  | _, [] => []
  | _, .command b :: r => .sendCommand b :: eventsFrom [] r
  | bs, .data b true :: r => .sendData (bs ++ [b]) :: eventsFrom [] r
  | bs, .data b false :: r => eventsFrom (bs ++ [b]) r
  | _, .panelInit :: r => .panelInit :: eventsFrom [] r

/-- The events of a stream of beats (R38). -/
def eventsOf (bs : List TxBeat) : List TxEvent := eventsFrom [] bs

end Sys2Proof.Machine
end

