-- ==== Sys2Proof/Safety.lean ====
section
/-! DEFINITION. What the claims call a good state: the invariant every run from reset keeps; the states a run reaches;
and the states whose next step begins an UPDATE that a reset abandons. -/

namespace Sys2Proof.Machine

/-- The events of one flush of an FPW with given dimensions and a given pixel payload (R191). -/
def flushOf (c : Config) (payload : List Byte) : List TxEvent :=
  [.sendCommand 0x2A, .sendData [0x00, 0x00, 0x00, BitVec.ofNat 8 (c.W - 1)],
   .sendCommand 0x2B, .sendData [0x00, 0x00, 0x00, BitVec.ofNat 8 (c.H - 1)],
   .sendCommand 0x2C, .sendData payload]

/-- TX since reset: PanelInit once, then whole flushes, each with a payload of exactly `FB_BYTES` bytes, the first of
them the reset flush of zeros (R31, R60, R191, R263). -/
def TxShape (c : Config) (tx : List TxEvent) : Prop :=
  ∃ payloads : List (List Byte), (∀ p ∈ payloads, p.length = c.fbBytes) ∧
    tx = .panelInit :: (List.replicate c.fbBytes 0x00 :: payloads).flatMap (flushOf c)

/-- The invariant of the FPW: FB's list is canonical and lies inside the buffer (R21), the reserved bits of STATUS are
0 (R30), TX is whole flushes (R31), the FPW is ready between commands (R41). -/
structure State.Inv (s : State) : Prop where
  fbCanonical : s.fb.wf = true
  fbInside : s.fb.within s.cfg.fbBytes = true
  statusReservedZero : s.status &&& 0xFFFE = 0
  txWhole : TxShape s.cfg s.tx
  ready : s.cmdReady = true

/-- The next step accepts an UPDATE at an edge at which the transport does not accept, and a sample with `rst` 1 comes
while the UPDATE still waits: every sample in between neither accepts nor resets (R244, R264). DEDUCED: that the wait
passes over samples inside one step is log entry 5, and that only a waiting UPDATE can be abandoned is log entry 13. -/
def State.AbandonsUpdate (s : State) : Prop :=
  ∃ (p : PortSample) (busy : List PortSample) (q : PortSample) (rest : List PortSample),
    s.port = p :: (busy ++ q :: rest) ∧ p.rst = false ∧ p.cmdValid = true ∧ s.cmdReady = true ∧
      decode p.cmdWord = .legal .update ∧ p.txReady = false ∧
      (∀ r ∈ busy, r.rst = false ∧ r.txReady = false) ∧ q.rst = true

/-- The states runs reach from a state. -/
inductive Reaches : State → State → Prop where
  | refl (s : State) : Reaches s s
  | next {s t u : State} : Reaches s t → step t = .next u → Reaches s u

end Sys2Proof.Machine
end

