-- ==== Sys2Proof/Certificates/Slice0/Obligations.lean ====
section
/-! DEFINITION. The statements for the provers. Statements marked stated formalise the rules they cite; statements
marked derived rest on a section the spec marks as derived, or on a convention of the model, and say so. -/

namespace Sys2Proof.Claims

open Sys2Proof Sys2Proof.Machine

/-! ### The vocabulary of the statements, written from the spec's tables -/

/-- `OP`, `cmd[7:0]` (R71). -/
def opOf (w : Command) : BitVec 8 := w.extractLsb' 0 8

/-- `FLAG`, `cmd[8]` (R71). -/
def flagOf (w : Command) : Bool := w.getLsbD 8

/-- `RSV`, `cmd[15:9]` (R71). -/
def rsvOf (w : Command) : BitVec 7 := w.extractLsb' 9 7

/-- `COLOR`, `cmd[31:16]` (R71). -/
def colorOf (w : Command) : BitVec 16 := w.extractLsb' 16 16

/-- `A`, `cmd[47:32]` (R71). -/
def fieldA (w : Command) : BitVec 16 := w.extractLsb' 32 16

/-- `B`, `cmd[63:48]` (R71). -/
def fieldB (w : Command) : BitVec 16 := w.extractLsb' 48 16

/-- `C`, `cmd[79:64]` (R71). -/
def fieldC (w : Command) : BitVec 16 := w.extractLsb' 64 16

/-- `D`, `cmd[95:80]` (R71). -/
def fieldD (w : Command) : BitVec 16 := w.extractLsb' 80 16

/-- A row whose format requires FLAG = 0: every word with its OP is illegal when RSV or FLAG is not 0, and otherwise
decodes to the given command (R72, R77). -/
def DecodesPlain (op : BitVec 8) (f : Command → Instr) : Prop :=
  ∀ w : Command, opOf w = op →
    ((rsvOf w ≠ 0 ∨ flagOf w = true) → ∃ why, decode w = .illegal why) ∧
    ((rsvOf w = 0 ∧ flagOf w = false) → decode w = .legal (f w))

/-- A row whose format reads FLAG: every word with its OP is illegal when RSV is not 0, and otherwise decodes to the
given command (R72, R75, R77). -/
def DecodesFlagged (op : BitVec 8) (f : Command → Instr) : Prop :=
  ∀ w : Command, opOf w = op →
    (rsvOf w ≠ 0 → ∃ why, decode w = .illegal why) ∧ (rsvOf w = 0 → decode w = .legal (f w))

/-- From `s` to `t` exactly the pixels of the buffer that satisfy `P` are written, in colour `k`, high byte first at
byte `(y * W + x) * 2`; every other byte of FB reads as before, and nothing but FB changes. -/
def PaintsExactly (s t : State) (P : Nat → Nat → Prop) (k : Color) : Prop :=
  t = { s with fb := t.fb } ∧
  (∀ x y, x < s.cfg.W → y < s.cfg.H → P x y →
    t.byte ((y * s.cfg.W + x) * 2) = k.extractLsb' 8 8 ∧ t.byte ((y * s.cfg.W + x) * 2 + 1) = k.extractLsb' 0 8) ∧
  (∀ a, (∀ x y, x < s.cfg.W → y < s.cfg.H → P x y →
      a ≠ (y * s.cfg.W + x) * 2 ∧ a ≠ (y * s.cfg.W + x) * 2 + 1) →
    t.byte a = s.byte a)

/-- What R104 puts into RESULT: `{FB[i], FB[i+1]}` at `i = (y * W + x) * 2`, or `0x0000` out of range. -/
def pixelOrZero (s : State) (x y : Nat) : BitVec 16 :=
  if x < s.cfg.W ∧ y < s.cfg.H then
    s.byte ((y * s.cfg.W + x) * 2) ++ s.byte ((y * s.cfg.W + x) * 2 + 1)
  else 0x0000

/-- `((r & 0xF8) << 8) | ((g & 0xFC) << 3) | (b >> 3)` in exact numbers (R210). -/
def packedChannels (r g b : Nat) : Nat := ((r &&& 0xF8) <<< 8) ||| ((g &&& 0xFC) <<< 3) ||| (b >>> 3)

/-- The points of an outline (R145). -/
def OnOutline (x1 y1 x2 y2 px py : Nat) : Prop :=
  (min x1 x2 ≤ px ∧ px ≤ max x1 x2 ∧ (py = y1 ∨ py = y2)) ∨
    ((px = x1 ∨ px = x2) ∧ min y1 y2 ≤ py ∧ py ≤ max y1 y2)

/-- The working values of the line walk from `(x1, y1)` to `(x2, y2)`: the set-up of R171, one iteration of R172 from
each entry to the next, no entry but the last at the endpoint, the last at the endpoint. -/
structure IsLineWalk (x1 y1 x2 y2 : Nat) (ps : List LineAt) : Prop where
  first : ps.head? = some ⟨x1, y1, |(x2 : Int) - x1| - |(y2 : Int) - y1|⟩
  steps : ∀ i p q, ps[i]? = some p → ps[i + 1]? = some q →
    q.x = (if 2 * p.err > -|(y2 : Int) - y1| then p.x + (if x1 < x2 then 1 else -1) else p.x) ∧
    q.y = (if 2 * p.err < |(x2 : Int) - x1| then p.y + (if y1 < y2 then 1 else -1) else p.y) ∧
    q.err = p.err - (if 2 * p.err > -|(y2 : Int) - y1| then |(y2 : Int) - y1| else 0)
      + (if 2 * p.err < |(x2 : Int) - x1| then |(x2 : Int) - x1| else 0)
  goesOn : ∀ i p q, ps[i]? = some p → ps[i + 1]? = some q → ¬ (p.x = (x2 : Int) ∧ p.y = (y2 : Int))
  ends : ∃ p, ps.getLast? = some p ∧ p.x = (x2 : Int) ∧ p.y = (y2 : Int)

/-- The OP values of the opcode map (R73). -/
def opcodeMap : List (BitVec 8) :=
  [0x00, 0x01, 0x02, 0x03, 0x04, 0x05, 0x06, 0x07, 0x11, 0x12, 0x14, 0x15, 0x16, 0x17,
   0x20, 0x21, 0x22, 0x23, 0x30, 0x31, 0x32, 0x33, 0x34, 0x35, 0x36, 0x40, 0x41]

/-- The OP values whose format reads FLAG (R72). -/
def flaggedOps : List (BitVec 8) := [0x11, 0x12, 0x14, 0x15, 0x16, 0x17]

/-- The words R77 and R78 call illegal. -/
def IllegalWord (w : Command) : Prop :=
  opOf w ∉ opcodeMap ∨ rsvOf w ≠ 0 ∨ (flagOf w = true ∧ opOf w ∉ flaggedOps) ∨
    (opOf w = 0x20 ∧
      ((fieldA w).extractLsb' 8 8 ≠ 0 ∨ (fieldB w).extractLsb' 8 8 ≠ 0 ∨ (fieldC w).extractLsb' 8 8 ≠ 0))

/-- The bits of a word that are read or checked, by OP: the pattern table of R72 without its `-` bits. -/
def readBits (op : BitVec 8) : Command :=
  if op ∈ [0x02, 0x30, 0x31, 0x32] then 0x0000_0000_0000_0000_FFFF_FFFF
  else if op ∈ [0x01] then 0x0000_0000_FFFF_FFFF_FFFF_FFFF
  else if op ∈ [0x21, 0x11] then 0x0000_0000_FFFF_FFFF_0000_FFFF
  else if op ∈ [0x05, 0x06] then 0x0000_FFFF_FFFF_FFFF_FFFF_FFFF
  else if op ∈ [0x15, 0x16, 0x20, 0x33] then 0x0000_FFFF_FFFF_FFFF_0000_FFFF
  else if op ∈ [0x03, 0x04, 0x07] then 0xFFFF_FFFF_FFFF_FFFF_FFFF_FFFF
  else if op ∈ [0x14, 0x17] then 0xFFFF_FFFF_FFFF_FFFF_0000_FFFF
  else 0x0000_0000_0000_0000_0000_FFFF

/-- The explicit-colour commands (R127). -/
def isExplicit : Instr → Bool
  | .setPixel .. | .fillColor .. | .rectFilled .. | .rectColor .. | .hlineColor .. | .vlineColor ..
  | .lineColor .. => true
  | _ => false

/-- The boolean commands (R120). -/
def isBoolean : Instr → Bool
  | .drawPixel .. | .fill .. | .drawRect .. | .drawHline .. | .drawVline .. | .drawLine .. => true
  | _ => false

/-- The commands that write RESULT (R29). -/
def writesResult : Instr → Bool
  | .rgb565 .. | .readPixel .. | .getFg | .getBg | .getAccent | .getWidth | .getHeight => true
  | _ => false

/-- The commands that write a theme register (R214). -/
def writesTheme : Instr → Bool
  | .setFg .. | .setBg .. | .setAccent .. | .setTheme .. => true
  | _ => false

/-- The commands that write ACC (R27). -/
def writesAccent : Instr → Bool
  | .setAccent .. | .setTheme .. => true
  | _ => false

end Sys2Proof.Claims

open Sys2Proof Sys2Proof.Machine Sys2Proof.Claims

/-! ### Pixel writer -/

/-- R101: SET_PIXEL writes one in-range pixel, high byte first, and nothing else; out of range it writes nothing. -/
def Obligations.SetPixelWritesOnePixel : Prop :=
  DecodesPlain 0x01 (fun w => .setPixel (fieldA w).toNat (fieldB w).toNat (colorOf w)) ∧
  ∀ (s : State) (x y : Nat) (k : Color), s.fb.wf = true →
    ∃ t, exec (.setPixel x y k) s = .next t ∧ PaintsExactly s t (fun px py => px = x ∧ py = y) k

/-- R102: plotting outside the buffer changes nothing at all. -/
def Obligations.PlotOutsideIsSilentClip : Prop :=
  ∀ (s : State) (x y : Nat) (k : Color), (s.cfg.W ≤ x ∨ s.cfg.H ≤ y) → s.plotPixel x y k = s

/-- R104: READ_PIXEL puts the pixel, or `0x0000` out of range, into RESULT and changes nothing else. -/
def Obligations.ReadPixelReturnsPixel : Prop :=
  DecodesPlain 0x21 (fun w => .readPixel (fieldA w).toNat (fieldB w).toNat) ∧
  ∀ (s : State) (x y : Nat),
    exec (.readPixel x y) s = .next { s with result := pixelOrZero s x y }

/-- The read-after-write law of 40_pixel.md, which the spec derives: FILL_COLOR then SET_PIXEL then READ_PIXEL. -/
def Obligations.FillThenSetThenRead : Prop :=
  ∀ (s : State) (c c2 : Color) (x y : Nat), s.fb.wf = true → x < s.cfg.W → y < s.cfg.H →
    ∃ t u v, exec (.fillColor c) s = .next t ∧ exec (.setPixel x y c2) t = .next u ∧
      exec (.readPixel x y) u = .next v ∧ v.result = c2 ∧ u.pix x y = c2 ∧
      ∀ px py, px < s.cfg.W → py < s.cfg.H → (px ≠ x ∨ py ≠ y) → u.pix px py = c

/-- 10_state.md section 2, as the spec derives it: pixel numbers are a bijection of the buffer's pixels onto
`0 .. W*H - 1`, and every byte of FB is the high or the low byte of exactly one pixel. -/
def Obligations.PixelsTileTheFramebuffer : Prop :=
  ∀ c : Config,
    (∀ x y, x < c.W → y < c.H → pixNumber c x y < c.W * c.H) ∧
    (∀ x y x' y', x < c.W → y < c.H → x' < c.W → y' < c.H → pixNumber c x y = pixNumber c x' y' →
      x = x' ∧ y = y') ∧
    (∀ a, a < c.fbBytes → ∃ x y, x < c.W ∧ y < c.H ∧ (a = pixIndex c x y ∨ a = pixIndex c x y + 1))

/-! ### Boolean primitives -/

/-- R121: DRAW_PIXEL is a pixel write in FG or BG. -/
def Obligations.DrawPixelUsesFlagColour : Prop :=
  DecodesFlagged 0x11 (fun w => .drawPixel (fieldA w).toNat (fieldB w).toNat (flagOf w)) ∧
  ∀ (s : State) (x y : Nat) (on : Bool), s.fb.wf = true →
    ∃ t, exec (.drawPixel x y on) s = .next t ∧
      PaintsExactly s t (fun px py => px = x ∧ py = y) (if on then s.fg else s.bg)

/-- R122: FILL writes every pixel of FB in FG or BG. -/
def Obligations.FillUsesFlagColour : Prop :=
  DecodesFlagged 0x12 (fun w => .fill (flagOf w)) ∧
  ∀ (s : State) (on : Bool), s.fb.wf = true →
    ∃ t, exec (.fill on) s = .next t ∧ PaintsExactly s t (fun _ _ => True) (if on then s.fg else s.bg)

/-- R123: DRAW_RECT writes the outline of the inclusive corners in FG or BG. -/
def Obligations.DrawRectUsesFlagColour : Prop :=
  DecodesFlagged 0x14 (fun w => .drawRect (fieldA w).toNat (fieldB w).toNat (fieldC w).toNat (fieldD w).toNat
    (flagOf w)) ∧
  ∀ (s : State) (x1 y1 x2 y2 : Nat) (on : Bool), s.fb.wf = true →
    ∃ t, exec (.drawRect x1 y1 x2 y2 on) s = .next t ∧
      PaintsExactly s t (OnOutline x1 y1 x2 y2) (if on then s.fg else s.bg)

/-- R124: DRAW_HLINE writes a horizontal run in FG or BG. -/
def Obligations.DrawHlineUsesFlagColour : Prop :=
  DecodesFlagged 0x15 (fun w => .drawHline (fieldA w).toNat (fieldB w).toNat (fieldC w).toNat (flagOf w)) ∧
  ∀ (s : State) (x y n : Nat) (on : Bool), s.fb.wf = true →
    ∃ t, exec (.drawHline x y n on) s = .next t ∧
      PaintsExactly s t (fun px py => py = y ∧ ∃ i < n, px = x + i) (if on then s.fg else s.bg)

/-- R125: DRAW_VLINE writes a vertical run in FG or BG. -/
def Obligations.DrawVlineUsesFlagColour : Prop :=
  DecodesFlagged 0x16 (fun w => .drawVline (fieldA w).toNat (fieldB w).toNat (fieldC w).toNat (flagOf w)) ∧
  ∀ (s : State) (x y n : Nat) (on : Bool), s.fb.wf = true →
    ∃ t, exec (.drawVline x y n on) s = .next t ∧
      PaintsExactly s t (fun px py => px = x ∧ ∃ i < n, py = y + i) (if on then s.fg else s.bg)

/-- R126: DRAW_LINE is LINE_COLOR with the same endpoints in FG or BG, and writes FB alone; which pixels a line writes is
`LineColorPlotsTheWalk`. -/
def Obligations.DrawLineUsesFlagColour : Prop :=
  DecodesFlagged 0x17 (fun w => .drawLine (fieldA w).toNat (fieldB w).toNat (fieldC w).toNat (fieldD w).toNat
    (flagOf w)) ∧
  ∀ (s : State) (x1 y1 x2 y2 : Nat) (on : Bool),
    ∃ t, exec (.drawLine x1 y1 x2 y2 on) s = .next t ∧ t = { s with fb := t.fb } ∧
      exec (.lineColor x1 y1 x2 y2 (if on then s.fg else s.bg)) s = .next t

/-- R120: every boolean command completes as the explicit-colour command of its rule with the same coordinates, in FG or
BG as the registers stand, whatever ACC holds. -/
def Obligations.BooleanCommandsDelegate : Prop :=
  ∀ (s : State) (acc : Color) (x y n x2 y2 : Nat) (on : Bool),
    let k := if on then s.fg else s.bg
    let same := fun i j : Instr => ∃ t, exec i s = .next t ∧ exec j s = .next t ∧
      exec i { s with acc := acc } = .next { t with acc := acc }
    same (.drawPixel x y on) (.setPixel x y k) ∧ same (.fill on) (.fillColor k) ∧
    same (.drawRect x y x2 y2 on) (.rectColor x y x2 y2 k) ∧ same (.drawHline x y n on) (.hlineColor x y n k) ∧
    same (.drawVline x y n on) (.vlineColor x y n k) ∧ same (.drawLine x y x2 y2 on) (.lineColor x y x2 y2 k)

/-- R127: an explicit-colour command reads no theme register: under any other theme it makes the same framebuffer and
leaves that theme alone. -/
def Obligations.ExplicitColourIgnoresTheme : Prop :=
  ∀ (i : Instr) (s : State) (fg bg acc : Color), isExplicit i = true →
    ∃ t, exec i s = .next t ∧
      exec i { s with fg := fg, bg := bg, acc := acc } = .next { t with fg := fg, bg := bg, acc := acc }

/-! ### Fill, rectangle and axis-line unit -/

/-- R140: FILL_COLOR writes every pixel of FB. -/
def Obligations.FillColorWritesEveryPixel : Prop :=
  DecodesPlain 0x02 (fun w => .fillColor (colorOf w)) ∧
  ∀ (s : State) (k : Color), s.fb.wf = true →
    ∃ t, exec (.fillColor k) s = .next t ∧ PaintsExactly s t (fun _ _ => True) k

/-- R141: RECT_FILLED writes the clipped rectangle, `x + w` and `y + h` exact. -/
def Obligations.RectFilledWritesClippedRectangle : Prop :=
  DecodesPlain 0x03 (fun w => .rectFilled (fieldA w).toNat (fieldB w).toNat (fieldC w).toNat (fieldD w).toNat
    (colorOf w)) ∧
  ∀ (s : State) (x y w h : Nat) (k : Color), s.fb.wf = true →
    ∃ t, exec (.rectFilled x y w h k) s = .next t ∧
      PaintsExactly s t (fun px py => x ≤ px ∧ px < x + w ∧ y ≤ py ∧ py < y + h) k

/-- R142: RECT_COLOR writes the outline of the inclusive corners, in either order. -/
def Obligations.RectColorWritesOutline : Prop :=
  DecodesPlain 0x04 (fun w => .rectColor (fieldA w).toNat (fieldB w).toNat (fieldC w).toNat (fieldD w).toNat
    (colorOf w)) ∧
  ∀ (s : State) (x1 y1 x2 y2 : Nat) (k : Color), s.fb.wf = true →
    ∃ t, exec (.rectColor x1 y1 x2 y2 k) s = .next t ∧ PaintsExactly s t (OnOutline x1 y1 x2 y2) k

/-- R143: HLINE_COLOR writes `(x + i, y)` for `i < length`, `x + i` exact, cut at the edge. -/
def Obligations.HlineColorWritesRow : Prop :=
  DecodesPlain 0x05 (fun w => .hlineColor (fieldA w).toNat (fieldB w).toNat (fieldC w).toNat (colorOf w)) ∧
  ∀ (s : State) (x y n : Nat) (k : Color), s.fb.wf = true →
    ∃ t, exec (.hlineColor x y n k) s = .next t ∧
      PaintsExactly s t (fun px py => py = y ∧ ∃ i < n, px = x + i) k

/-- R144: VLINE_COLOR writes `(x, y + i)` for `i < length`, `y + i` exact, cut at the edge. -/
def Obligations.VlineColorWritesColumn : Prop :=
  DecodesPlain 0x06 (fun w => .vlineColor (fieldA w).toNat (fieldB w).toNat (fieldC w).toNat (colorOf w)) ∧
  ∀ (s : State) (x y n : Nat) (k : Color), s.fb.wf = true →
    ∃ t, exec (.vlineColor x y n k) s = .next t ∧
      PaintsExactly s t (fun px py => px = x ∧ ∃ i < n, py = y + i) k

/-- 20_memory.md section 4, as the spec derives it: drawing the same thing twice is drawing it once. -/
def Obligations.ExplicitDrawingIsIdempotent : Prop :=
  ∀ (i : Instr) (s t : State), isExplicit i = true → s.fb.wf = true → exec i s = .next t → exec i t = .next t

/-- The order of the points does not count (20_memory.md section 4): plotting a list of points is plotting them one by
one, in the order of the list and in the reverse order. The model paints them in one pass (log entry 7). -/
def Obligations.PlottingIsPlotPixelLoop : Prop :=
  ∀ (s : State) (ps : List Point) (k : Color), s.fb.wf = true →
    s.plotAll ps k = ps.foldl (fun t p => t.plotPixel p.1 p.2 k) s ∧
    s.plotAll ps k = ps.reverse.foldl (fun t p => t.plotPixel p.1 p.2 k) s

/-! ### Line rasterizer -/

/-- 43_line.md: LINE_COLOR walks from one endpoint to the other by the integer algorithm and writes the walk's in-range
points, and nothing else. The strict comparisons are "from general knowledge, not in source" in the spec's own words
(log entry 9), so the statement is marked derived. -/
def Obligations.LineColorPlotsTheWalk : Prop :=
  DecodesPlain 0x07 (fun w => .lineColor (fieldA w).toNat (fieldB w).toNat (fieldC w).toNat (fieldD w).toNat
    (colorOf w)) ∧
  ∀ (s : State) (x1 y1 x2 y2 : Nat) (k : Color), s.fb.wf = true →
    ∃ (ps : List LineAt) (t : State), IsLineWalk x1 y1 x2 y2 ps ∧ exec (.lineColor x1 y1 x2 y2 k) s = .next t ∧
      PaintsExactly s t (fun px py => ∃ p ∈ ps, p.x = (px : Int) ∧ p.y = (py : Int)) k

/-- 43_line.md, termination and count, which the spec derives and checks by enumeration only: the walk has
`max(dx, dy) + 1` distinct points, from the first endpoint to the second, each 8-connected to the next. -/
def Obligations.LineWalkCountsItsPoints : Prop :=
  ∀ x1 y1 x2 y2 : Nat,
    (linePoints x1 y1 x2 y2).length = max ((x2 - x1) + (x1 - x2)) ((y2 - y1) + (y1 - y2)) + 1 ∧
    (linePoints x1 y1 x2 y2).Nodup ∧
    (linePoints x1 y1 x2 y2).head? = some (x1, y1) ∧
    (linePoints x1 y1 x2 y2).getLast? = some (x2, y2) ∧
    ∀ (i : Nat) (p q : Point), (linePoints x1 y1 x2 y2)[i]? = some p → (linePoints x1 y1 x2 y2)[i + 1]? = some q →
      (p.1 ≠ q.1 ∨ p.2 ≠ q.2) ∧ p.1 ≤ q.1 + 1 ∧ q.1 ≤ p.1 + 1 ∧ p.2 ≤ q.2 + 1 ∧ q.2 ≤ p.2 + 1

/-- 43_line.md, ranges, which the spec derives and checks by enumeration only: at the top of every iteration the error
term and the position stay in range; 19 signed bits hold `e2` for 16-bit operands. -/
def Obligations.LineWalkStaysInRange : Prop :=
  ∀ (x1 y1 x2 y2 : Nat) (p : LineAt), p ∈ lineWalk x1 y1 x2 y2 →
    -(2 * |(y2 : Int) - y1|) ≤ p.err ∧ p.err ≤ 2 * |(x2 : Int) - x1| ∧
    -(4 * |(y2 : Int) - y1|) ≤ 2 * p.err ∧ 2 * p.err ≤ 4 * |(x2 : Int) - x1| ∧
    (x1 < 65536 → y1 < 65536 → x2 < 65536 → y2 < 65536 → |2 * p.err| ≤ 262140) ∧
    ((min x1 x2 : Nat) : Int) ≤ p.x ∧ p.x ≤ ((max x1 x2 : Nat) : Int) ∧
    ((min y1 y2 : Nat) : Int) ≤ p.y ∧ p.y ≤ ((max y1 y2 : Nat) : Int)

/-- 43_line.md, special lines, which the spec derives: horizontal, vertical and diagonal lines plot every point between
the endpoints. -/
def Obligations.SpecialLinesAreWhole : Prop :=
  (∀ x1 x2 y px py : Nat, (px, py) ∈ linePoints x1 y x2 y ↔ py = y ∧ min x1 x2 ≤ px ∧ px ≤ max x1 x2) ∧
  (∀ x y1 y2 px py : Nat, (px, py) ∈ linePoints x y1 x y2 ↔ px = x ∧ min y1 y2 ≤ py ∧ py ≤ max y1 y2) ∧
  (∀ x1 y1 x2 y2 px py : Nat, |(x2 : Int) - x1| = |(y2 : Int) - y1| →
    ((px, py) ∈ linePoints x1 y1 x2 y2 ↔
      ∃ k : Nat, (k : Int) ≤ |(x2 : Int) - x1| ∧ (px : Int) = x1 + k * (if x1 < x2 then 1 else -1) ∧
        (py : Int) = y1 + k * (if y1 < y2 then 1 else -1)))

/-- 43_line.md, endpoint order, the spec's own example: LINE_COLOR from `(0,0)` to `(10,5)` and back write different
pixels in every buffer that holds both, for they differ at `(1, 0)`. -/
def Obligations.EndpointOrderMatters : Prop :=
  ∀ (s : State) (k : Color), s.fb.wf = true → 11 ≤ s.cfg.W → 6 ≤ s.cfg.H → s.pix 1 0 ≠ k →
    ∃ t u, exec (.lineColor 0 0 10 5 k) s = .next t ∧ exec (.lineColor 10 5 0 0 k) s = .next u ∧
      t.pix 1 0 = k ∧ u.pix 1 0 ≠ k ∧ t.pix 10 5 = k ∧ u.pix 10 5 = k

/-! ### Flush stream and transport -/

/-- R191, R193: UPDATE appends six events, the last payload being every byte of FB in index order, and changes nothing
else; it completes when the transport accepts. -/
def Obligations.UpdateSendsTheWholeFrame : Prop :=
  DecodesPlain 0x40 (fun _ => .update) ∧
  ∀ s : State, s.txReady = true →
    exec .update s = .next { s with tx := s.tx ++
      [.sendCommand 0x2A, .sendData [0x00, 0x00, 0x00, BitVec.ofNat 8 (s.cfg.W - 1)],
       .sendCommand 0x2B, .sendData [0x00, 0x00, 0x00, BitVec.ofNat 8 (s.cfg.H - 1)],
       .sendCommand 0x2C, .sendData ((List.range s.cfg.fbBytes).map s.byte)] }

/-- R195: UPDATE appends to TX, and no other command does. -/
def Obligations.OnlyUpdateAppendsToTx : Prop :=
  (∀ s t : State, exec .update s = .next t → ∃ es : List TxEvent, es ≠ [] ∧ t.tx = s.tx ++ es) ∧
  ∀ (i : Instr) (s t : State), i ≠ .update → exec i s = .next t → t.tx = s.tx

/-- 10_state.md section 5: TX is append-only since the last reset, its payloads are non-empty, and only UPDATE and reset
append: a step leaves TX alone, or appends the events of an accepted UPDATE, or restarts it, with PanelInit first, by a
reset that its sample asks for or that abandons an UPDATE still waiting for the transport. That a step may hold such a
wait and its reset is the model's reading (log entries 5 and 13, DEDUCED), so the statement is marked derived. -/
def Obligations.TxIsAppendOnly : Prop :=
  ∀ s t : State, step s = .next t →
    t.tx = s.tx ∨
    ∃ (p : PortSample) (rest : List PortSample) (es : List TxEvent), s.port = p :: rest ∧
      (∀ bs, .sendData bs ∈ es → bs ≠ []) ∧
      ((p.rst = false ∧ p.cmdValid = true ∧ s.cmdReady = true ∧ decode p.cmdWord = .legal .update ∧
          t.tx = s.tx ++ es) ∨
        ((p.rst = true ∨ s.AbandonsUpdate) ∧ t.tx = .panelInit :: es))

/-- 10_state.md section 8: where the transport accepts at no edge of the input, reset is stuck, and so is UPDATE if no
reset comes either; no other command waits. That the input's edges are the samples of `port` is log entry 5. -/
def Obligations.StalledTransportStopsOnlyEmitters : Prop :=
  (∀ s : State, s.txReady = false → exec .update s = .fault .transportStalled) ∧
  (∀ (s : State) (p : PortSample) (rest : List PortSample), s.port = p :: rest → p.rst = true →
    p.txReady = false → (∀ q ∈ rest, q.txReady = false) → step s = .fault .transportStalled) ∧
  (∀ (s : State) (p : PortSample) (rest : List PortSample), s.port = p :: rest → p.rst = false →
    p.cmdValid = true → s.cmdReady = true → decode p.cmdWord = .legal .update → p.txReady = false →
    (∀ q ∈ rest, q.rst = false ∧ q.txReady = false) → step s = .fault .transportStalled) ∧
  (∀ (i : Instr) (s : State), i ≠ .update → ∃ t, exec i s = .next t)

/-- 10_state.md section 8: the beats of the transport port carry TX: grouping the data beats up to `tx_last` gives the
events back. The beat's form is log entry 12. -/
def Obligations.BeatsCarryTheTrace : Prop :=
  ∀ es : List TxEvent, (∀ bs, .sendData bs ∈ es → bs ≠ []) → eventsOf (beatsOf es) = es

/-! ### Encoder, theme, accessors, control -/

/-- R210: RGB565 puts the truncated channels into RESULT and changes nothing else; a channel with a non-zero high byte
is illegal. -/
def Obligations.Rgb565PacksChannels : Prop :=
  (∀ w : Command, opOf w = 0x20 →
    ((rsvOf w ≠ 0 ∨ flagOf w = true ∨ (fieldA w).extractLsb' 8 8 ≠ 0 ∨ (fieldB w).extractLsb' 8 8 ≠ 0 ∨
        (fieldC w).extractLsb' 8 8 ≠ 0) → ∃ why, decode w = .illegal why) ∧
    ((rsvOf w = 0 ∧ flagOf w = false ∧ (fieldA w).extractLsb' 8 8 = 0 ∧ (fieldB w).extractLsb' 8 8 = 0 ∧
        (fieldC w).extractLsb' 8 8 = 0) →
      decode w = .legal (.rgb565 ((fieldA w).extractLsb' 0 8) ((fieldB w).extractLsb' 0 8)
        ((fieldC w).extractLsb' 0 8)))) ∧
  ∀ (s : State) (r g b : Byte),
    exec (.rgb565 r g b) s = .next { s with result := BitVec.ofNat 16 (packedChannels r.toNat g.toNat b.toNat) }

/-- The field law of 45_color_theme.md section 1, which the spec derives: red in the top 5 bits, green in the middle 6,
blue in the bottom 5. -/
def Obligations.Rgb565FieldsAreChannels : Prop :=
  ∀ (s : State) (r g b : Byte), ∃ t, exec (.rgb565 r g b) s = .next t ∧
    t.result.extractLsb' 11 5 = r.extractLsb' 3 5 ∧ t.result.extractLsb' 5 6 = g.extractLsb' 2 6 ∧
      t.result.extractLsb' 0 5 = b.extractLsb' 3 5

/-- R216, R217, R218, R219: the theme setters write their registers and nothing else. -/
def Obligations.ThemeSettersWriteTheirRegisters : Prop :=
  DecodesPlain 0x30 (fun w => .setFg (colorOf w)) ∧
  DecodesPlain 0x31 (fun w => .setBg (colorOf w)) ∧
  DecodesPlain 0x32 (fun w => .setAccent (colorOf w)) ∧
  DecodesPlain 0x33 (fun w => .setTheme (fieldA w) (fieldB w) (fieldC w)) ∧
  (∀ (s : State) (k : Color), exec (.setFg k) s = .next { s with fg := k }) ∧
  (∀ (s : State) (k : Color), exec (.setBg k) s = .next { s with bg := k }) ∧
  (∀ (s : State) (k : Color), exec (.setAccent k) s = .next { s with acc := k }) ∧
  (∀ (s : State) (f b a : Color), exec (.setTheme f b a) s = .next { s with fg := f, bg := b, acc := a })

/-- R220, R221, R222: the theme getters copy their register to RESULT and change nothing else. -/
def Obligations.ThemeGettersReturnTheirRegisters : Prop :=
  DecodesPlain 0x34 (fun _ => .getFg) ∧ DecodesPlain 0x35 (fun _ => .getBg) ∧ DecodesPlain 0x36 (fun _ => .getAccent) ∧
  ∀ s : State,
    exec .getFg s = .next { s with result := s.fg } ∧
    exec .getBg s = .next { s with result := s.bg } ∧
    exec .getAccent s = .next { s with result := s.acc }

/-- R223, R224: GET_WIDTH and GET_HEIGHT return `W` and `H`, which fit, and change nothing else. -/
def Obligations.DimensionGettersReturnDimensions : Prop :=
  DecodesPlain 0x22 (fun _ => .getWidth) ∧ DecodesPlain 0x23 (fun _ => .getHeight) ∧
  ∀ s : State,
    (∃ t, exec .getWidth s = .next t ∧ t = { s with result := t.result } ∧ t.result.toNat = s.cfg.W) ∧
    (∃ t, exec .getHeight s = .next t ∧ t = { s with result := t.result } ∧ t.result.toNat = s.cfg.H) ∧
    1 ≤ s.cfg.W ∧ s.cfg.W ≤ 256 ∧ 1 ≤ s.cfg.H ∧ s.cfg.H ≤ 256

/-- R225: NOP changes nothing, and the all-zero word is NOP. -/
def Obligations.NopChangesNothing : Prop :=
  DecodesPlain 0x00 (fun _ => .nop) ∧ decode 0 = .legal .nop ∧ ∀ s : State, exec .nop s = .next s

/-- R226: CLEAR_STATUS clears STATUS and changes nothing else; an illegal CLEAR_STATUS sets ILL. -/
def Obligations.ClearStatusClearsStatus : Prop :=
  DecodesPlain 0x41 (fun _ => .clearStatus) ∧
  (∀ s : State, exec .clearStatus s = .next { s with status := 0x0000 }) ∧
  (∀ (s : State) (w : Command), opOf w = 0x41 → (rsvOf w ≠ 0 ∨ flagOf w = true) →
    acceptCommand w s = .next { s with status := s.status ||| 0x0001 })

/-! ### Decoding -/

/-- Decode and encode agree: every well-formed command, with every operand its fields admit, is what its word decodes
to. -/
def Obligations.DecodeOfEncode : Prop :=
  ∀ i : Instr, i.wellFormed = true → decode (encode i) = .legal i

/-- A word the decoder takes decodes to a well-formed command whose own word agrees with it on every bit the command
reads (30_encoding.md sections 2 and 5). -/
def Obligations.EncodeOfDecode : Prop :=
  ∀ (w : Command) (i : Instr), decode w = .legal i →
    i.wellFormed = true ∧ encode i &&& readBits (opOf w) = w &&& readBits (opOf w)

/-- R77, R78: exactly the words that fail the opcode check or a field check are illegal, and such a word sets ILL and
does nothing else. -/
def Obligations.IllegalWordsAreTheSpecs : Prop :=
  ∀ (w : Command) (s : State),
    (IllegalWord w ↔ ∃ why, decode w = .illegal why) ∧
    (IllegalWord w → acceptCommand w s = .next { s with status := s.status ||| 0x0001 })

/-- R79: a field a format does not read changes neither the command nor its legality. -/
def Obligations.UnreadFieldsAreIgnored : Prop :=
  ∀ w v : Command, w &&& readBits (opOf w) = v &&& readBits (opOf w) → decode w = decode v

/-- 30_encoding.md section 7: the worked encodings, both ways. -/
def Obligations.WorkedEncodings : Prop :=
  encode .nop = 0x0000_0000_0000_0000_0000_0000 ∧
  encode (.setPixel 3 4 0xF800) = 0x0000_0000_0004_0003_F800_0001 ∧
  encode (.fillColor 0x07E0) = 0x0000_0000_0000_0000_07E0_0002 ∧
  encode (.rectFilled 1 2 3 4 0x001F) = 0x0004_0003_0002_0001_001F_0003 ∧
  encode (.lineColor 0 0 10 5 0xFFFF) = 0x0005_000A_0000_0000_FFFF_0007 ∧
  encode (.drawLine 0 0 10 5 true) = 0x0005_000A_0000_0000_0000_0117 ∧
  encode (.fill false) = 0x0000_0000_0000_0000_0000_0012 ∧
  encode (.rgb565 255 255 255) = 0x0000_00FF_00FF_00FF_0000_0020 ∧
  encode (.setTheme 0xFFFF 0x0000 0x07FF) = 0x0000_07FF_0000_FFFF_0000_0033 ∧
  encode .update = 0x0000_0000_0000_0000_0000_0040 ∧
  decode 0x0000_0000_0000_0000_0000_0101 = .illegal .flagNotAllowed ∧
  decode 0x0000_0000_0000_0000_0000_0213 = .illegal .undefinedOpcode ∧
  decode 0x0000_0000_0000_01FF_0000_0020 = .illegal .channelTooWide

/-- 30_encoding.md section 6: the operands of a well-formed command, written in the order of the format's fields,
assemble to that command; and the pseudo-instructions expand as its table says, PLOT for every coordinate that fits. -/
def Obligations.AssemblyGivesTheCommandBack : Prop :=
  (∀ i : Instr, i.wellFormed = true → commandOf i.opcode (operandsOf i) = some i) ∧
  Pseudo.expand .themeDefault [] = some (.setTheme 0xFFFF 0x0000 0x07FF) ∧
  Pseudo.expand .clear [] = some (.fill false) ∧
  (∀ x y, fits16 x = true → fits16 y = true →
    Pseudo.expand .plot [.number x, .number y] = some (.drawPixel x y true))

/-! ### The step, reset and the exception -/

/-- A step runs the command the presented word decodes to (10_state.md section 8), in the state in which the sample is
taken; the sample list is the model's own (log entry 1). Around the command stands only the wait of an UPDATE presented
while the transport does not accept: `ResetTakesPrecedence` and `WaitingEndsWhereTheTransportAccepts` say what it does. -/
def Obligations.StepRunsDecodedCommand : Prop :=
  ∀ (s : State) (p : PortSample) (rest : List PortSample) (i : Instr),
    s.port = p :: rest → p.rst = false → p.cmdValid = true → s.cmdReady = true → decode p.cmdWord = .legal i →
    step s = runCommand i { s with txReady := p.txReady, port := rest } ∧
      (i ≠ .update ∨ p.txReady = true → step s = exec i { s with txReady := p.txReady, port := rest })

/-- Without a reset and without an accepted command a step changes no register, no pixel and no event (10_state.md
section 8); with no sample at all the machine waits (log entry 1). -/
def Obligations.StepWithoutCommandWaits : Prop :=
  (∀ s : State, s.port = [] → step s = .next s) ∧
  (∀ (s : State) (p : PortSample) (rest : List PortSample), s.port = p :: rest → p.rst = false →
    (p.cmdValid = false ∨ s.cmdReady = false) → step s = .next { s with txReady := p.txReady, port := rest })

/-- R241: an illegal command is consumed, sets STATUS[0], keeps STATUS's other bits and changes nothing else, and the
next command executes normally; ILL is sticky: no command changes STATUS but CLEAR_STATUS, and reset clears it. -/
def Obligations.IllegalCommandSetsIllOnly : Prop :=
  (∀ (s : State) (p : PortSample) (rest : List PortSample) (why : Illegal),
    s.port = p :: rest → p.rst = false → p.cmdValid = true → s.cmdReady = true → decode p.cmdWord = .illegal why →
    ∃ t, step s = .next t ∧ t = { s with status := t.status, txReady := p.txReady, port := rest } ∧
      t.status.getLsbD 0 = true ∧ t.status.extractLsb' 1 15 = s.status.extractLsb' 1 15 ∧ t.cmdReady = true ∧
      ∀ (q : PortSample) (after : List PortSample) (j : Instr), rest = q :: after → q.rst = false →
        q.cmdValid = true → decode q.cmdWord = .legal j →
        step t = runCommand j { t with txReady := q.txReady, port := after } ∧
        (j ≠ .update ∨ q.txReady = true → step t = exec j { t with txReady := q.txReady, port := after })) ∧
  (∀ (i : Instr) (s t : State), i ≠ .clearStatus → exec i s = .next t → t.status = s.status) ∧
  (∀ s : State, ∃ t, exec .clearStatus s = .next t ∧ t.status = 0x0000) ∧
  (∀ s : State, s.resetSequence.status = 0x0000)

/-- 10_state.md section 9 and 70_reset_and_hazards.md section 1: `rst` on an accepting transport leaves every piece of
state at its reset value, whatever the state before, and whatever command is presented with it; until reset has ended no
command is accepted. The values of FG, BG and ACC are "from general knowledge, not in source" in the spec's own words
(log entry 10), so the statement is marked derived. -/
def Obligations.ResetLeavesResetValues : Prop :=
  (∀ (s : State) (p : PortSample) (rest : List PortSample),
    s.port = p :: rest → p.rst = true → p.txReady = true → s.fb.wf = true → s.fb.within s.cfg.fbBytes = true →
    ∃ t, step s = .next t ∧ t.cfg = s.cfg ∧ (∀ a, t.byte a = 0x00) ∧ t.fb = [] ∧
      (∀ x y, x < t.cfg.W → y < t.cfg.H → t.pix x y = t.bg) ∧
      t.fg = 0xFFFF ∧ t.bg = 0x0000 ∧ t.acc = 0x07FF ∧ t.result = 0x0000 ∧ t.status = 0x0000 ∧
      t.tx = [.panelInit,
        .sendCommand 0x2A, .sendData [0x00, 0x00, 0x00, BitVec.ofNat 8 (s.cfg.W - 1)],
        .sendCommand 0x2B, .sendData [0x00, 0x00, 0x00, BitVec.ofNat 8 (s.cfg.H - 1)],
        .sendCommand 0x2C, .sendData (List.replicate s.cfg.fbBytes 0x00)] ∧
      t.cmdReady = true ∧ t.port = rest) ∧
  (∀ (s : State) (p : PortSample) (rest : List PortSample),
    s.port = p :: rest → p.rst = false → s.cmdReady = false →
    ∃ t, step s = .next t ∧ t = { s with txReady := p.txReady, port := rest })

/-- R8: an FPW of dimensions `1 .. 256` is constructed with exactly those dimensions, any other is refused. -/
def Obligations.ConstructionTakesOnlyLegalDimensions : Prop :=
  ∀ w h : Nat,
    ((1 ≤ w ∧ w ≤ 256) ∧ (1 ≤ h ∧ h ≤ 256) →
      ∃ t, construct w h = .next t ∧ t.cfg.W = w ∧ t.cfg.H = h ∧ t.cfg.fbBytes = w * h * 2) ∧
    (¬ ((1 ≤ w ∧ w ≤ 256) ∧ (1 ≤ h ∧ h ≤ 256)) → construct w h = .refused .badConfiguration)

/-! ### Whole-machine rules -/

/-- R29: RESULT is written by the seven value-returning commands, which write nothing else, and by no other command;
it is 0 after reset. -/
def Obligations.OnlyValueCommandsWriteResult : Prop :=
  (∀ (i : Instr) (s t : State), writesResult i = true → exec i s = .next t → t = { s with result := t.result }) ∧
  (∀ (i : Instr) (s t : State), writesResult i = false → exec i s = .next t → t.result = s.result) ∧
  (∀ s : State, s.raiseIllegal.result = s.result) ∧
  (∀ c : Config, (State.resetWith c).result = 0x0000)

/-- 10_state.md section 4: a step sets ILL only by an illegal command, clears it only by CLEAR_STATUS or by a reset that
its sample asks for or that abandons an UPDATE still waiting for the transport, and keeps the reserved bits of STATUS at
0; STATUS is 0 after reset. That a step may hold such a wait and its reset is the model's reading (log entries 5 and 13,
DEDUCED), so the statement is marked derived. -/
def Obligations.StatusChangesOnlyAsStated : Prop :=
  (∀ s t : State, step s = .next t → s.ill = false → t.ill = true →
    ∃ p rest why, s.port = p :: rest ∧ p.rst = false ∧ p.cmdValid = true ∧ decode p.cmdWord = .illegal why) ∧
  (∀ s t : State, step s = .next t → s.ill = true → t.ill = false →
    ∃ p rest, s.port = p :: rest ∧
      (p.rst = true ∨ (p.rst = false ∧ p.cmdValid = true ∧ decode p.cmdWord = .legal .clearStatus) ∨
        s.AbandonsUpdate)) ∧
  (∀ (s : State) (p : PortSample) (rest : List PortSample) (why : Illegal),
    s.port = p :: rest → p.rst = false → p.cmdValid = true → s.cmdReady = true → decode p.cmdWord = .illegal why →
    ∃ t, step s = .next t ∧ t.ill = true) ∧
  (∀ s t : State, step s = .next t → s.statusReserved = 0 → t.statusReserved = 0) ∧
  (∀ c : Config, (State.resetWith c).status = 0x0000)

/-- R32: no step writes `W` or `H`. -/
def Obligations.DimensionsAreReadOnly : Prop :=
  (∀ s t : State, step s = .next t → t.cfg.W = s.cfg.W ∧ t.cfg.H = s.cfg.H) ∧
  ∀ s : State,
    exec .getWidth s = .next { s with result := BitVec.ofNat 16 s.cfg.W } ∧
    exec .getHeight s = .next { s with result := BitVec.ofNat 16 s.cfg.H }

/-- 45_color_theme.md section 2 and 10_state.md section 3: FB is changed by drawing commands alone and the theme by the
theme setters alone; a theme command changes no pixel. -/
def Obligations.FramebufferAndThemeAreSeparate : Prop :=
  (∀ (i : Instr) (s t : State), isExplicit i = false → isBoolean i = false → exec i s = .next t → t.fb = s.fb) ∧
  (∀ (i : Instr) (s t : State), writesTheme i = false → exec i s = .next t →
    t.fg = s.fg ∧ t.bg = s.bg ∧ t.acc = s.acc)

/-- 60_exceptions.md section 1, as the spec derives it: every legal command completes, whatever its operands, and
raises nothing; UPDATE on an accepting transport, every other command on any. -/
def Obligations.LegalCommandsAlwaysComplete : Prop :=
  ∀ (s : State) (p : PortSample) (rest : List PortSample) (i : Instr),
    s.port = p :: rest → p.rst = false → p.cmdValid = true → s.cmdReady = true → decode p.cmdWord = .legal i →
    (i ≠ .update ∨ p.txReady = true) → s.ill = false → ∃ t, step s = .next t ∧ t.ill = false ∧ t.cmdReady = true

/-- 10_state.md section 7: no command reads RESULT, not even one that writes it; and none but GET_ACCENT reads ACC
(section 3): with another value there a command that writes the register leaves the very same state, and any other
command leaves the same state but for that value, which it keeps. -/
def Obligations.ResultAndAccentAreNotRead : Prop :=
  (∀ (i : Instr) (s t : State) (v : BitVec 16), exec i s = .next t →
    exec i { s with result := v } = .next (if writesResult i then t else { t with result := v })) ∧
  (∀ (i : Instr) (s t : State) (v : Color), i ≠ .getAccent → exec i s = .next t →
    exec i { s with acc := v } = .next (if writesAccent i then t else { t with acc := v }))

/-- Every step keeps the invariant: FB's list canonical and inside the buffer, STATUS's reserved bits 0, TX whole
flushes after one PanelInit, the FPW ready (Safety.lean; 10_state.md sections 2, 4, 5, 9). -/
def Obligations.StepKeepsInvariant : Prop :=
  ∀ s t : State, s.Inv → step s = .next t → t.Inv

/-- The invariant holds right after reset, in every configuration. -/
def Obligations.InvariantHoldsAtReset : Prop :=
  State.reset.Inv ∧ ∀ c : Config, (State.resetWith c).Inv

/-! ### Reset against a command, and waiting for the transport -/

/-- 60_exceptions.md section 3: a word is either illegal, with the one effect of setting ILL whichever checks it fails, or
executes and sets no ILL; `rst` takes precedence over a presented command, whatever it is; and a command that is executing
when `rst` rises, which only an UPDATE that waits for the transport can be, is abandoned: the step is the reset's alone.
That the wait passes over samples inside one step, and that no other command can be abandoned, is the model's reading
(log entries 5 and 13, DEDUCED), so the statement is marked derived. -/
def Obligations.ResetTakesPrecedence : Prop :=
  (∀ (w v : Command) (s : State) (why why' : Illegal), decode w = .illegal why → decode v = .illegal why' →
    acceptCommand w s = .next { s with status := s.status ||| 0x0001 } ∧ acceptCommand w s = acceptCommand v s) ∧
  (∀ (w : Command) (s t : State) (i : Instr), decode w = .legal i → acceptCommand w s = .next t → s.ill = false →
    t.ill = false) ∧
  (∀ (s : State) (p : PortSample) (rest : List PortSample) (v : Bool) (w : Command), s.port = p :: rest →
    p.rst = true → step s = step { s with port := { p with cmdValid := v, cmdWord := w } :: rest }) ∧
  (∀ (s : State) (p q : PortSample) (busy rest : List PortSample), s.port = p :: (busy ++ q :: rest) →
    p.rst = false → p.cmdValid = true → s.cmdReady = true → decode p.cmdWord = .legal .update → p.txReady = false →
    (∀ r ∈ busy, r.rst = false ∧ r.txReady = false) → q.rst = true → step s = step { s with port := q :: rest })

/-- 10_state.md section 8 and 70_reset_and_hazards.md section 2: a reset or an UPDATE that the transport makes wait ends
at the first edge at which the transport accepts, and a command presented before that has no effect, for `cmd_ready` is
0. That the edges are the samples of `port` is log entry 5. -/
def Obligations.WaitingEndsWhereTheTransportAccepts : Prop :=
  ∀ (s : State) (p q : PortSample) (busy rest : List PortSample), s.port = p :: (busy ++ q :: rest) →
    p.txReady = false → (∀ r ∈ busy, r.txReady = false) → q.txReady = true →
    (p.rst = true → step s = .next (State.resetSequence { s with txReady := true, port := rest })) ∧
    (p.rst = false → p.cmdValid = true → s.cmdReady = true → decode p.cmdWord = .legal .update →
      (∀ r ∈ busy, r.rst = false) → q.rst = false →
      step s = exec .update { s with txReady := true, port := rest } ∧
        ∃ t, step s = .next t ∧ t = { s with txReady := true, port := rest, tx := t.tx })
end

