-- ==== Sys2Proof/Laws/Decode.lean ====
section
/-! SUPPORT. The command word's fields survive packing, and the opcode map is one to one. -/

namespace Sys2Proof

/-- The low part of a concatenation. -/
theorem extract_append_low {n m : Nat} (hi : BitVec n) (lo : BitVec m) : (hi ++ lo).extractLsb' 0 m = lo := by
  refine BitVec.eq_of_getLsbD_eq fun i h => ?_
  simp only [BitVec.getLsbD_extractLsb', BitVec.getLsbD_append, Nat.zero_add, h, decide_true, Bool.true_and, if_true]

/-- A field of the high part of a concatenation. -/
theorem extract_append_high {n m s k : Nat} (hi : BitVec n) (lo : BitVec m) (hs : m ≤ s) :
    (hi ++ lo).extractLsb' s k = hi.extractLsb' (s - m) k := by
  refine BitVec.eq_of_getLsbD_eq fun i h => ?_
  simp only [BitVec.getLsbD_extractLsb', BitVec.getLsbD_append, h, decide_true, Bool.true_and]
  rw [if_neg (by omega)]
  congr 1
  omega

/-- A bit of the high part of a concatenation. -/
theorem getLsbD_append_high {n m s : Nat} (hi : BitVec n) (lo : BitVec m) (hs : m ≤ s) :
    (hi ++ lo).getLsbD s = hi.getLsbD (s - m) := by
  rw [BitVec.getLsbD_append, if_neg (by omega)]

/-- A bit of the low part of a concatenation. -/
theorem getLsbD_append_low {n m s : Nat} (hi : BitVec n) (lo : BitVec m) (hs : s < m) :
    (hi ++ lo).getLsbD s = lo.getLsbD s := by
  rw [BitVec.getLsbD_append, if_pos hs]

/-- The field table of R71 covers the word: packed fields unpack to themselves. -/
@[simp] theorem unpack_pack (f : Fields) : unpack (pack f) = f := by
  obtain ⟨op, flag, rsv, color, a, b, c, d⟩ := f
  have hflag : (pack ⟨op, flag, rsv, color, a, b, c, d⟩).getLsbD 8 = flag := by
    simp only [pack]
    rw [getLsbD_append_high _ _ (by omega), getLsbD_append_low _ _ (by omega)]
    simp
  simp only [unpack, Fields.mk.injEq]
  refine ⟨?_, hflag, ?_, ?_, ?_, ?_, ?_, ?_⟩ <;> simp only [pack]
  · exact extract_append_low _ _
  all_goals
    repeat rw [extract_append_high _ _ (by omega)]
    first
      | exact extract_append_low _ _
      | simp

/-- No two rows share an OP value, and every row is in the table (R73). -/
@[simp] theorem ofCode_code (o : Opcode) : Opcode.ofCode o.code = some o := by
  cases o <;> rfl

/-- A row found for an OP value has that OP value. -/
theorem code_of_ofCode {op : BitVec 8} {o : Opcode} (h : Opcode.ofCode op = some o) : o.code = op := by
  have := List.find?_some h
  simpa using this

@[simp] theorem unpack_encode (i : Instr) : unpack (encode i) = fieldsOf i := unpack_pack _

/-- All that decoding a word can be (R81). -/
theorem decode_cases (w : Command) :
    (Opcode.ofCode (unpack w).op = none ∧ decode w = .illegal .undefinedOpcode) ∨
      (∃ o why, Opcode.ofCode (unpack w).op = some o ∧ checkFields o.format (unpack w) = some why ∧
        decode w = .illegal why) ∨
      (∃ o, Opcode.ofCode (unpack w).op = some o ∧ checkFields o.format (unpack w) = none ∧
        decode w = .legal (assemble o (unpack w))) := by
  unfold decode
  cases ho : Opcode.ofCode (unpack w).op with
  | none => exact .inl ⟨rfl, by simp only [ho]⟩
  | some o =>
    cases hc : checkFields o.format (unpack w) with
    | some why => exact .inr (.inl ⟨o, why, rfl, hc, by simp only [ho, hc]⟩)
    | none => exact .inr (.inr ⟨o, rfl, hc, by simp only [ho, hc]⟩)

theorem field16_toNat {n : Nat} (h : fits16 n = true) : (field16 n).toNat = n := by
  simp only [fits16, decide_eq_true_eq] at h
  simp [field16, Nat.mod_eq_of_lt h]

@[simp] theorem lowByte_setWidth (v : Byte) : lowByte (v.setWidth 16) = v := by
  refine BitVec.eq_of_getLsbD_eq fun i hi => ?_
  simp only [lowByte, BitVec.getLsbD_extractLsb', BitVec.getLsbD_setWidth, hi, decide_true, Bool.true_and,
    Nat.zero_add]
  simp only [Bool.and_eq_right_iff_imp, decide_eq_true_eq]
  omega

@[simp] theorem highByte_setWidth (v : Byte) : highByte (v.setWidth 16) = 0 := by
  refine BitVec.eq_of_getLsbD_eq fun i hi => ?_
  simp only [highByte, BitVec.getLsbD_extractLsb', BitVec.getLsbD_setWidth]
  simp

end Sys2Proof
end

