-- ==== Sys2Proof/Laws/Memory.lean ====
section
/-! SUPPORT. FB's list of bytes: every operation keeps the canonical form, a painted pixel reads as painted and every
other byte reads as before, and two canonical lists that read alike are equal. -/

namespace Sys2Proof.Machine

/-! ### The canonical form -/

@[simp] theorem wfFrom_nil (lo : Nat) : Memory.wfFrom lo [] = true := rfl

theorem wfFrom_cell {lo k : Nat} {b : Byte} {m : Memory} :
    Memory.wfFrom lo ((k, b) :: m) = true ↔
      lo ≤ k ∧ b ≠ Memory.unlisted ∧ Memory.wfFrom (k + 1) m = true := by
  simp [Memory.wfFrom, and_assoc]

theorem wfFrom_mono {lo lo' : Nat} {m : Memory} (hle : lo' ≤ lo) (h : Memory.wfFrom lo m = true) :
    Memory.wfFrom lo' m = true := by
  cases m with
  | nil => rfl
  | cons c m =>
    obtain ⟨hk, hb, hm⟩ := wfFrom_cell.1 h
    exact wfFrom_cell.2 ⟨by omega, hb, hm⟩

theorem wf_of_wfFrom {lo : Nat} {m : Memory} (h : Memory.wfFrom lo m = true) : m.wf = true :=
  wfFrom_mono (Nat.zero_le lo) h

theorem wfFrom_of_wf {m : Memory} (h : m.wf = true) : Memory.wfFrom 0 m = true := h

/-! ### Reading -/

@[simp] theorem read_nil (a : Nat) : Memory.read [] a = Memory.unlisted := rfl

theorem read_cell (k : Nat) (b : Byte) (m : Memory) (a : Nat) :
    Memory.read ((k, b) :: m) a = if a = k then b else if a < k then Memory.unlisted else m.read a := rfl

/-- Nothing is listed below the address a canonical list starts from. -/
theorem read_before {lo a : Nat} {m : Memory} (h : Memory.wfFrom lo m = true) (ha : a < lo) :
    m.read a = Memory.unlisted := by
  cases m with
  | nil => rfl
  | cons c m =>
    obtain ⟨k, b⟩ := c
    have hk := (wfFrom_cell.1 h).1
    rw [read_cell, if_neg (by omega), if_pos (by omega)]

/-- A canonical list is known from what its bytes read as. -/
theorem memory_ext : ∀ {lo : Nat} {m m' : Memory}, Memory.wfFrom lo m = true → Memory.wfFrom lo m' = true →
    (∀ a, m.read a = m'.read a) → m = m' := by
  intro lo m
  induction m generalizing lo with
  | nil =>
    intro m' _ h' hr
    cases m' with
    | nil => rfl
    | cons c m' =>
      obtain ⟨k, b⟩ := c
      have := hr k
      simp only [read_nil, read_cell, if_pos] at this
      exact absurd this.symm (wfFrom_cell.1 h').2.1
  | cons c m ih =>
    obtain ⟨k, b⟩ := c
    intro m' h h' hr
    obtain ⟨-, hb, hm⟩ := wfFrom_cell.1 h
    cases m' with
    | nil =>
      have := hr k
      simp only [read_nil, read_cell, if_pos] at this
      exact absurd this hb
    | cons c' m' =>
      obtain ⟨k', b'⟩ := c'
      obtain ⟨-, hb', hm'⟩ := wfFrom_cell.1 h'
      have h1 := hr k
      have h2 := hr k'
      simp only [read_cell, if_pos] at h1 h2
      have hkk : k = k' := by
        rcases Nat.lt_trichotomy k k' with hlt | heq | hgt
        · rw [if_neg (by omega), if_pos hlt] at h1
          exact absurd h1 hb
        · exact heq
        · rw [if_neg (by omega), if_pos hgt] at h2
          exact absurd h2.symm hb'
      subst hkk
      simp only [if_pos] at h1
      subst h1
      congr 1
      refine ih hm hm' fun a => ?_
      have ha := hr a
      simp only [read_cell] at ha
      by_cases hle : a ≤ k
      · rw [read_before hm (by omega), read_before hm' (by omega)]
      · rwa [if_neg (by omega), if_neg (by omega), if_neg (by omega), if_neg (by omega)] at ha

/-! ### Listing a byte -/

theorem wfFrom_cons {lo a : Nat} {v : Byte} {m : Memory} (hlo : lo ≤ a) (h : Memory.wfFrom (a + 1) m = true) :
    Memory.wfFrom lo (Memory.cons a v m) = true := by
  unfold Memory.cons
  split
  · exact wfFrom_mono (by omega) h
  · exact wfFrom_cell.2 ⟨hlo, ‹_›, h⟩

theorem read_cons {a x : Nat} {v : Byte} {m : Memory} (h : Memory.wfFrom (a + 1) m = true) :
    (Memory.cons a v m).read x = if x = a then v else m.read x := by
  unfold Memory.cons
  by_cases hx : x = a
  · subst hx
    split
    · next hv => rw [read_before h (by omega), if_pos rfl, hv]
    · simp [read_cell]
  · rw [if_neg hx]
    split
    · rfl
    · rw [read_cell, if_neg hx]
      split
      · rw [read_before h (by omega)]
      · rfl

/-! ### The two halves of a list at an address -/

theorem wfFrom_under_append {lo a : Nat} {m r : Memory} (hm : Memory.wfFrom lo m = true) (hle : lo ≤ a)
    (hr : Memory.wfFrom a r = true) : Memory.wfFrom lo (m.under a ++ r) = true := by
  induction m generalizing lo with
  | nil => exact wfFrom_mono hle hr
  | cons c m ih =>
    obtain ⟨k, b⟩ := c
    obtain ⟨hk, hb, hm⟩ := wfFrom_cell.1 hm
    by_cases hka : k < a
    · simp only [Memory.under, hka, List.takeWhile_cons, decide_true, if_pos, List.cons_append]
      exact wfFrom_cell.2 ⟨hk, hb, ih hm hka⟩
    · simpa [Memory.under, hka] using wfFrom_mono hle hr

theorem read_under_append {lo a x : Nat} {m r : Memory} (hm : Memory.wfFrom lo m = true)
    (hr : Memory.wfFrom a r = true) : (m.under a ++ r).read x = if x < a then m.read x else r.read x := by
  induction m generalizing lo with
  | nil =>
    by_cases hx : x < a
    · simp [Memory.under, hx, read_before hr hx]
    · simp [Memory.under, hx]
  | cons c m ih =>
    obtain ⟨k, b⟩ := c
    obtain ⟨-, -, hm⟩ := wfFrom_cell.1 hm
    by_cases hka : k < a
    · have hb : Memory.under a ((k, b) :: m) = (k, b) :: Memory.under a m := by simp [Memory.under, hka]
      rw [hb, List.cons_append, read_cell, read_cell, ih hm]
      split_ifs <;> first | rfl | omega
    · have hb : Memory.under a ((k, b) :: m) = [] := by simp [Memory.under, hka]
      rw [hb, List.nil_append, read_cell]
      split_ifs with h1 h2 h3
      · omega
      · exact read_before hr h1
      · omega
      · rfl

theorem fromOn_cell_of_lt {a k : Nat} {b : Byte} {m : Memory} (h : k < a) :
    Memory.fromOn a ((k, b) :: m) = m.fromOn a := by
  simp [Memory.fromOn, h]

theorem fromOn_cell_of_le {a k : Nat} {b : Byte} {m : Memory} (h : ¬ k < a) :
    Memory.fromOn a ((k, b) :: m) = (k, b) :: m := by
  simp [Memory.fromOn, h]

theorem wfFrom_fromOn {lo a : Nat} {m : Memory} (hm : Memory.wfFrom lo m = true) :
    Memory.wfFrom a (m.fromOn a) = true := by
  induction m generalizing lo with
  | nil => rfl
  | cons c m ih =>
    obtain ⟨k, b⟩ := c
    obtain ⟨-, hb, hm⟩ := wfFrom_cell.1 hm
    by_cases hka : k < a
    · rw [fromOn_cell_of_lt hka]
      exact ih hm
    · rw [fromOn_cell_of_le hka]
      exact wfFrom_cell.2 ⟨by omega, hb, hm⟩

theorem read_fromOn {a x : Nat} {m : Memory} (hx : a ≤ x) : (m.fromOn a).read x = m.read x := by
  induction m with
  | nil => rfl
  | cons c m ih =>
    obtain ⟨k, b⟩ := c
    by_cases hka : k < a
    · rw [fromOn_cell_of_lt hka, ih, read_cell, if_neg (by omega), if_neg (by omega)]
    · rw [fromOn_cell_of_le hka]

/-! ### Painting pixels -/

/-- A strictly rising list of pixel numbers, none below `lo`. -/
def RisingFrom : Nat → List Nat → Prop
  | _, [] => True
  | lo, i :: is => lo ≤ i ∧ RisingFrom (i + 1) is

theorem risingFrom_mono {lo lo' : Nat} {is : List Nat} (hle : lo' ≤ lo) (h : RisingFrom lo is) :
    RisingFrom lo' is := by
  cases is with
  | nil => trivial
  | cons i is => exact ⟨le_trans hle h.1, h.2⟩

theorem le_of_mem_risingFrom {lo i : Nat} {is : List Nat} (h : RisingFrom lo is) (hi : i ∈ is) : lo ≤ i := by
  induction is generalizing lo with
  | nil => simp at hi
  | cons j is ih =>
    obtain ⟨hj, hr⟩ := h
    rcases List.mem_cons.1 hi with rfl | hi
    · exact hj
    · exact le_trans (by omega) (ih hr hi)

theorem risingFrom_range' (n : Nat) : ∀ a, RisingFrom a (List.range' a n) := by
  induction n with
  | zero => intro a; trivial
  | succ n ih => intro a; exact ⟨le_refl a, ih (a + 1)⟩

/-- The byte of a pixel of colour `k` at an even or odd address (R51). -/
def byteOf (k : Color) (a : Nat) : Byte := if a % 2 = 0 then hiByte k else loByte k

theorem paint_nil (k : Color) (m : Memory) : m.paint k [] = m := rfl

theorem wfFrom_paint {k : Color} : ∀ {is : List Nat} {lo n : Nat} {m : Memory}, Memory.wfFrom lo m = true →
    RisingFrom n is → lo ≤ 2 * n → Memory.wfFrom lo (m.paint k is) = true := by
  intro is
  induction is with
  | nil => intro lo n m hm _ _; exact hm
  | cons i is ih =>
    intro lo n m hm hr hle
    have htail : Memory.wfFrom (2 * i + 2) ((m.fromOn (2 * i + 2)).paint k is) = true :=
      ih (wfFrom_fromOn hm) hr.2 (by omega)
    have := hr.1
    exact wfFrom_under_append hm (by omega)
      (wfFrom_cons (le_refl _) (wfFrom_cons (le_refl _) htail))

/-- Painting keeps the canonical form. -/
theorem wf_paint {k : Color} {is : List Nat} {m : Memory} (hm : m.wf = true) (hr : RisingFrom 0 is) :
    (m.paint k is).wf = true := wfFrom_paint (wfFrom_of_wf hm) hr (le_refl _)

theorem read_paint_from {k : Color} : ∀ {is : List Nat} {lo n : Nat} {m : Memory} (x : Nat),
    Memory.wfFrom lo m = true → RisingFrom n is → lo ≤ 2 * n →
    (m.paint k is).read x = if x / 2 ∈ is then byteOf k x else m.read x := by
  intro is
  induction is with
  | nil => intro lo n m x _ _ _; simp [paint_nil]
  | cons i is ih =>
    intro lo n m x hm hr hle
    have hi := hr.1
    have hfrom : Memory.wfFrom (2 * i + 2) (m.fromOn (2 * i + 2)) = true := wfFrom_fromOn hm
    have htail : Memory.wfFrom (2 * i + 2) ((m.fromOn (2 * i + 2)).paint k is) = true :=
      wfFrom_paint hfrom hr.2 (by omega)
    have hpair := wfFrom_cons (v := loByte k) (le_refl _) htail
    have hread := ih (m := m.fromOn (2 * i + 2)) x hfrom hr.2 (by omega)
    have hmem : x / 2 ∈ is → i < x / 2 := fun h => le_of_mem_risingFrom hr.2 h
    show (m.under (2 * i) ++ _).read x = _
    rw [read_under_append hm (wfFrom_cons (le_refl _) hpair), read_cons hpair, read_cons htail, hread]
    by_cases hx : x < 2 * i
    · have : x / 2 ∉ i :: is := by
        intro h
        rcases List.mem_cons.1 h with h | h
        · omega
        · have := hmem h
          omega
      rw [if_pos hx, if_neg this]
    · rw [if_neg hx]
      by_cases h0 : x = 2 * i
      · subst h0
        simp [byteOf]
      · rw [if_neg h0]
        by_cases h1 : x = 2 * i + 1
        · subst h1
          have : (2 * i + 1) / 2 = i := by omega
          have h2 : (2 * i + 1) % 2 = 1 := by omega
          simp [byteOf, this, h2]
        · rw [if_neg h1, read_fromOn (by omega)]
          have hne : x / 2 ≠ i := by omega
          simp [hne]

/-- What a byte of FB reads as after painting: the colour's byte in a painted pixel, as before elsewhere. -/
theorem read_paint {k : Color} {is : List Nat} {m : Memory} (x : Nat) (hm : m.wf = true) (hr : RisingFrom 0 is) :
    (m.paint k is).read x = if x / 2 ∈ is then byteOf k x else m.read x :=
  read_paint_from x (wfFrom_of_wf hm) hr (le_refl _)

theorem mem_cons_cell {a : Nat} {v : Byte} {m : Memory} {c : Host.Cell} (h : c ∈ Memory.cons a v m) :
    c = (a, v) ∨ c ∈ m := by
  unfold Memory.cons at h
  split at h
  · exact .inr h
  · exact List.mem_cons.1 h

theorem mem_paint {k : Color} : ∀ {is : List Nat} {m : Memory} {c : Host.Cell}, c ∈ m.paint k is →
    c.1 / 2 ∈ is ∨ c ∈ m := by
  intro is
  induction is with
  | nil => intro m c h; exact .inr h
  | cons i is ih =>
    intro m c h
    rcases List.mem_append.1 h with h | h
    · exact .inr ((List.takeWhile_sublist _).mem h)
    · rcases mem_cons_cell h with rfl | h
      · exact .inl (List.mem_cons.2 (.inl (by simp)))
      · rcases mem_cons_cell h with rfl | h
        · exact .inl (List.mem_cons.2 (.inl (by show (2 * i + 1) / 2 = i; omega)))
        · rcases ih h with h | h
          · exact .inl (List.mem_cons_of_mem _ h)
          · exact .inr ((List.dropWhile_sublist _).mem h)

/-- Painting pixels of a buffer keeps FB's list inside the buffer. -/
theorem within_paint {k : Color} {is : List Nat} {m : Memory} {n : Nat} (hm : m.within (n * 2) = true)
    (his : ∀ i ∈ is, i < n) : (m.paint k is).within (n * 2) = true := by
  simp only [Memory.within, List.all_eq_true, decide_eq_true_eq] at hm ⊢
  intro c hc
  rcases mem_paint hc with h | h
  · have := his _ h
    omega
  · exact hm c h

/-! ### Reading a block -/

theorem read_dropHead {a x : Nat} {m : Memory} (hx : a < x) : (m.dropHead a).read x = m.read x := by
  cases m with
  | nil => rfl
  | cons c m =>
    obtain ⟨k, b⟩ := c
    rw [Memory.dropHead]
    split
    · rw [read_cell, if_neg (by omega), if_neg (by omega)]
    · rfl

/-- A block of FB is its bytes in index order (R52, R193). -/
theorem readBytes_eq_map : ∀ (n a : Nat) (m : Memory), m.readBytes a n = (List.range' a n).map m.read := by
  intro n
  induction n with
  | zero => intro a m; rfl
  | succ n ih =>
    intro a m
    rw [Memory.readBytes, ih, List.range'_succ, List.map_cons]
    congr 1
    refine List.map_congr_left fun x hx => read_dropHead ?_
    have := (List.mem_range'_1.1 hx).1
    omega

@[simp] theorem length_readBytes (n a : Nat) (m : Memory) : (m.readBytes a n).length = n := by
  simp [readBytes_eq_map]

end Sys2Proof.Machine
end

