-- ==== Sys2Proof/Laws/Operands.lean ====
section
/-! SUPPORT. Which points the shapes hold, and how a line's trace unfolds. -/

namespace Sys2Proof.Machine

theorem mem_interval {a b v : Nat} : v ∈ interval a b ↔ a ≤ v ∧ v < b := by
  unfold interval
  rw [List.mem_range'_1]
  omega

theorem mem_hlinePoints {x y n px py : Nat} : (px, py) ∈ hlinePoints x y n ↔ py = y ∧ x ≤ px ∧ px < x + n := by
  simp only [hlinePoints, List.mem_map, mem_interval, Prod.mk.injEq]
  constructor
  · rintro ⟨i, hi, rfl, rfl⟩
    omega
  · rintro ⟨rfl, h1, h2⟩
    exact ⟨px - x, by omega, by omega, rfl⟩

theorem mem_vlinePoints {x y n px py : Nat} : (px, py) ∈ vlinePoints x y n ↔ px = x ∧ y ≤ py ∧ py < y + n := by
  simp only [vlinePoints, List.mem_map, mem_interval, Prod.mk.injEq]
  constructor
  · rintro ⟨i, hi, rfl, rfl⟩
    omega
  · rintro ⟨rfl, h1, h2⟩
    exact ⟨py - y, by omega, rfl, by omega⟩

theorem mem_rectPoints {c : Config} {x y w h px py : Nat} :
    (px, py) ∈ rectPoints c x y w h ↔ (x ≤ px ∧ px < x + w ∧ px < c.W) ∧ y ≤ py ∧ py < y + h ∧ py < c.H := by
  simp only [rectPoints, List.mem_flatMap, List.mem_map, mem_interval, Prod.mk.injEq]
  constructor
  · rintro ⟨row, hrow, col, hcol, rfl, rfl⟩
    omega
  · rintro ⟨hx, hy⟩
    exact ⟨py, by omega, px, by omega, rfl, rfl⟩

theorem mem_outlinePoints {x1 y1 x2 y2 px py : Nat} : (px, py) ∈ outlinePoints x1 y1 x2 y2 ↔
    (px, py) ∈ hlinePoints (min x1 x2) y1 (absDiff x2 x1 + 1) ∨
      (px, py) ∈ hlinePoints (min x1 x2) y2 (absDiff x2 x1 + 1) ∨
      (px, py) ∈ vlinePoints x1 (min y1 y2) (absDiff y2 y1 + 1) ∨
      (px, py) ∈ vlinePoints x2 (min y1 y2) (absDiff y2 y1 + 1) := by
  simp only [outlinePoints, List.mem_append, or_assoc]

theorem lineTrace_zero (l : LineSetup) (p : LineAt) : lineTrace l 0 p = [] := rfl

theorem lineTrace_succ (l : LineSetup) (n : Nat) (p : LineAt) :
    lineTrace l (n + 1) p = p :: if p.atEnd l then [] else lineTrace l n (p.next l) := rfl

theorem atEnd_iff {l : LineSetup} {p : LineAt} : p.atEnd l = true ↔ p.x = l.x2 ∧ p.y = l.y2 := by
  simp [LineAt.atEnd]

end Sys2Proof.Machine
end

