-- ==== Sys2Proof/Laws/Ops.lean ====
section
/-! SUPPORT. What the shared operations do: which pixels a list of points plots, what a pixel and a byte read as after
plotting or filling, and what a transmitting step can answer. -/

namespace Sys2Proof.Machine

/-! ### Dimensions and pixel numbers -/

theorem config_W_pos (c : Config) : 0 < c.W := Nat.succ_pos _

theorem config_H_pos (c : Config) : 0 < c.H := Nat.succ_pos _

theorem config_W_le (c : Config) : c.W ≤ 256 := by have := c.lastX.isLt; unfold Config.W; omega

theorem config_H_le (c : Config) : c.H ≤ 256 := by have := c.lastY.isLt; unfold Config.H; omega

theorem inRange_iff {c : Config} {x y : Nat} : inRange c x y = true ↔ x < c.W ∧ y < c.H := by
  simp [inRange]

theorem pixNumber_lt {c : Config} {x y : Nat} (hx : x < c.W) (hy : y < c.H) : pixNumber c x y < c.W * c.H := by
  unfold pixNumber
  calc y * c.W + x < y * c.W + c.W := by omega
    _ = (y + 1) * c.W := by ring
    _ ≤ c.H * c.W := Nat.mul_le_mul_right _ hy
    _ = c.W * c.H := Nat.mul_comm _ _

/-- Two columns of the buffer with one pixel number are one pixel (R23). -/
theorem pixNumber_inj {c : Config} {x y x' y' : Nat} (hx : x < c.W) (hx' : x' < c.W)
    (h : pixNumber c x y = pixNumber c x' y') : x = x' ∧ y = y' := by
  unfold pixNumber at h
  have hm := congrArg (· % c.W) h
  have hd := congrArg (· / c.W) h
  simp only [Nat.mul_add_mod_of_lt, hx, hx', Nat.add_div_of_dvd_right (Nat.dvd_mul_left c.W _),
    Nat.mul_div_cancel _ (config_W_pos c), Nat.div_eq_of_lt] at hm hd
  exact ⟨by simpa [Nat.mul_add_mod_of_lt, Nat.mod_eq_of_lt, hx, hx'] using hm, by simpa using hd⟩

/-- Every pixel number of the buffer is a pixel (R23). -/
theorem exists_pixNumber {c : Config} {i : Nat} (hi : i < c.W * c.H) :
    i % c.W < c.W ∧ i / c.W < c.H ∧ pixNumber c (i % c.W) (i / c.W) = i := by
  refine ⟨Nat.mod_lt _ (config_W_pos c), Nat.div_lt_of_lt_mul hi, ?_⟩
  unfold pixNumber
  rw [Nat.mul_comm]
  exact Nat.div_add_mod i c.W

/-! ### Colours and bytes -/

/-- A colour is its high byte followed by its low byte (R51). -/
@[simp] theorem hiByte_append_loByte (k : Color) : hiByte k ++ loByte k = k := by
  refine BitVec.eq_of_getLsbD_eq fun i hi => ?_
  simp only [hiByte, loByte, BitVec.getLsbD_append, BitVec.getLsbD_extractLsb']
  by_cases h : i < 8
  · simp [h]
  · have h8 : i - 8 < 8 := by omega
    have hi8 : 8 + (i - 8) = i := by omega
    simp [h, h8, hi8]

@[simp] theorem byteOf_even (k : Color) (i : Nat) : byteOf k (i * 2) = hiByte k := by simp [byteOf]

@[simp] theorem byteOf_odd (k : Color) (i : Nat) : byteOf k (i * 2 + 1) = loByte k := by
  have : (i * 2 + 1) % 2 = 1 := by omega
  simp [byteOf, this]

/-! ### The pixels a list of points plots -/

theorem mem_insertNumber {n j : Nat} {is : List Nat} : j ∈ insertNumber n is ↔ j = n ∨ j ∈ is := by
  induction is with
  | nil => simp [insertNumber]
  | cons i is ih =>
    unfold insertNumber
    split_ifs with h1 h2
    · simp
    · subst h2; simp
    · simp only [List.mem_cons, ih]
      tauto

theorem risingFrom_insertNumber {n : Nat} {is : List Nat} : ∀ {lo : Nat}, RisingFrom lo is →
    RisingFrom (min lo n) (insertNumber n is) := by
  induction is with
  | nil => intro lo _; exact ⟨min_le_right _ _, trivial⟩
  | cons i is ih =>
    intro lo h
    unfold insertNumber
    split_ifs with h1 h2
    · exact ⟨min_le_right _ _, by omega, h.2⟩
    · exact ⟨by have := h.1; omega, h.2⟩
    · refine ⟨by have := h.1; omega, ?_⟩
      exact risingFrom_mono (by omega) (ih h.2)

theorem plotted_nil (c : Config) : plotted c [] = [] := rfl

theorem plotted_cons (c : Config) (p : Point) (ps : List Point) :
    plotted c (p :: ps) =
      if inRange c p.1 p.2 then insertNumber (pixNumber c p.1 p.2) (plotted c ps) else plotted c ps := rfl

/-- The plotted pixels are the in-range points and no others: everything else is clipped (R101, R102). -/
theorem mem_plotted {c : Config} {j : Nat} {ps : List Point} :
    j ∈ plotted c ps ↔ ∃ x y, (x, y) ∈ ps ∧ x < c.W ∧ y < c.H ∧ j = pixNumber c x y := by
  induction ps with
  | nil => simp [plotted_nil]
  | cons p ps ih =>
    obtain ⟨x, y⟩ := p
    rw [plotted_cons]
    by_cases hr : inRange c x y = true
    · rw [if_pos hr, mem_insertNumber, ih]
      rw [inRange_iff] at hr
      constructor
      · rintro (rfl | ⟨x', y', hm, h⟩)
        · exact ⟨x, y, by simp, hr.1, hr.2, rfl⟩
        · exact ⟨x', y', List.mem_cons_of_mem _ hm, h⟩
      · rintro ⟨x', y', hm, hx, hy, rfl⟩
        rcases List.mem_cons.1 hm with h | h
        · cases h; exact .inl rfl
        · exact .inr ⟨x', y', h, hx, hy, rfl⟩
    · rw [if_neg hr, ih]
      rw [inRange_iff] at hr
      constructor
      · rintro ⟨x', y', hm, h⟩
        exact ⟨x', y', List.mem_cons_of_mem _ hm, h⟩
      · rintro ⟨x', y', hm, hx, hy, rfl⟩
        rcases List.mem_cons.1 hm with h | h
        · cases h; exact absurd ⟨hx, hy⟩ hr
        · exact ⟨x', y', h, hx, hy, rfl⟩

theorem risingFrom_plotted (c : Config) (ps : List Point) : RisingFrom 0 (plotted c ps) := by
  induction ps with
  | nil => trivial
  | cons p ps ih =>
    rw [plotted_cons]
    split
    · exact risingFrom_mono (Nat.zero_le _) (risingFrom_insertNumber ih)
    · exact ih

theorem plotted_lt {c : Config} {ps : List Point} {j : Nat} (h : j ∈ plotted c ps) : j < c.W * c.H := by
  obtain ⟨x, y, -, hx, hy, rfl⟩ := mem_plotted.1 h
  exact pixNumber_lt hx hy

/-- An in-range pixel is plotted exactly when it is one of the points. -/
theorem pixNumber_mem_plotted {c : Config} {ps : List Point} {x y : Nat} (hx : x < c.W) (hy : y < c.H) :
    pixNumber c x y ∈ plotted c ps ↔ (x, y) ∈ ps := by
  rw [mem_plotted]
  constructor
  · rintro ⟨x', y', hm, hx', -, h⟩
    obtain ⟨rfl, rfl⟩ := pixNumber_inj hx hx' h
    exact hm
  · exact fun hm => ⟨x, y, hm, hx, hy, rfl⟩

/-! ### Plotting and filling on the state -/

theorem fb_wf_plotAll {s : State} (h : s.fb.wf = true) (ps : List Point) (k : Color) :
    (s.plotAll ps k).fb.wf = true := wf_paint h (risingFrom_plotted _ _)

theorem fb_wf_fillAll {s : State} (h : s.fb.wf = true) (k : Color) : (s.fillAll k).fb.wf = true :=
  wf_paint h (risingFrom_range' _ _)

theorem fb_within_plotAll {s : State} (h : s.fb.within s.cfg.fbBytes = true) (ps : List Point) (k : Color) :
    (s.plotAll ps k).fb.within s.cfg.fbBytes = true := within_paint h fun _ hi => plotted_lt hi

theorem fb_within_fillAll {s : State} (h : s.fb.within s.cfg.fbBytes = true) (k : Color) :
    (s.fillAll k).fb.within s.cfg.fbBytes = true :=
  within_paint h fun i hi => by have := (List.mem_range'_1.1 hi).2; omega

/-- The one spec lemma of `plotAll`, by bytes: the bytes of plotted pixels hold the colour, all others stay. -/
theorem byte_plotAll {s : State} (h : s.fb.wf = true) (ps : List Point) (k : Color) (a : Nat) :
    (s.plotAll ps k).byte a = if a / 2 ∈ plotted s.cfg ps then byteOf k a else s.byte a :=
  read_paint a h (risingFrom_plotted _ _)

theorem byte_fillAll {s : State} (h : s.fb.wf = true) (k : Color) (a : Nat) :
    (s.fillAll k).byte a = if a < s.cfg.fbBytes then byteOf k a else s.byte a := by
  show (s.fb.paint k _).read a = _
  rw [read_paint a h (risingFrom_range' _ _)]
  have hiff : a / 2 ∈ List.range' 0 (s.cfg.W * s.cfg.H) ↔ a < s.cfg.fbBytes := by
    rw [List.mem_range'_1]
    unfold Config.fbBytes
    omega
  simp only [hiff]
  rfl

theorem pix_eq (s : State) (x y : Nat) :
    s.pix x y = s.byte (pixNumber s.cfg x y * 2) ++ s.byte (pixNumber s.cfg x y * 2 + 1) := rfl

/-- The one spec lemma of `plotAll`, by pixels: an in-range pixel among the points takes the colour, any other pixel
of the buffer keeps its own (R101, R102). -/
theorem pix_plotAll {s : State} (h : s.fb.wf = true) {ps : List Point} {k : Color} {x y : Nat} (hx : x < s.cfg.W)
    (hy : y < s.cfg.H) : (s.plotAll ps k).pix x y = if (x, y) ∈ ps then k else s.pix x y := by
  have h0 : pixNumber s.cfg x y * 2 / 2 = pixNumber s.cfg x y := by omega
  have h1 : (pixNumber s.cfg x y * 2 + 1) / 2 = pixNumber s.cfg x y := by omega
  have hcfg : (s.plotAll ps k).cfg = s.cfg := rfl
  rw [pix_eq, hcfg, byte_plotAll h, byte_plotAll h, h0, h1, byteOf_even, byteOf_odd]
  by_cases hm : (x, y) ∈ ps
  · have := (pixNumber_mem_plotted hx hy).2 hm
    rw [if_pos this, if_pos this, if_pos hm, hiByte_append_loByte]
  · have := mt (pixNumber_mem_plotted hx hy).1 hm
    rw [if_neg this, if_neg this, if_neg hm]
    rfl

/-- After a fill every pixel of the buffer is the colour (R140). -/
theorem pix_fillAll {s : State} (h : s.fb.wf = true) {k : Color} {x y : Nat} (hx : x < s.cfg.W) (hy : y < s.cfg.H) :
    (s.fillAll k).pix x y = k := by
  have hn := pixNumber_lt hx hy
  have hcfg : (s.fillAll k).cfg = s.cfg := rfl
  rw [pix_eq, hcfg, byte_fillAll h, byte_fillAll h, if_pos (by unfold Config.fbBytes; omega),
    if_pos (by unfold Config.fbBytes; omega), byteOf_even, byteOf_odd, hiByte_append_loByte]

/-- Plotting a list is plotting its points one by one (R100): the loop of the rules. -/
theorem plotAll_cons {s : State} (h : s.fb.wf = true) (p : Point) (ps : List Point) (k : Color) :
    s.plotAll (p :: ps) k = (s.plotPixel p.1 p.2 k).plotAll ps k := by
  have h1 : (s.plotPixel p.1 p.2 k).fb.wf = true := fb_wf_plotAll h _ _
  have hfb : (s.plotAll (p :: ps) k).fb = ((s.plotPixel p.1 p.2 k).plotAll ps k).fb := by
    refine memory_ext (fb_wf_plotAll h _ _) (fb_wf_plotAll h1 _ _) fun a => ?_
    have e1 := byte_plotAll h (p :: ps) k a
    have e2 := byte_plotAll h1 ps k a
    have e3 : (s.plotPixel p.1 p.2 k).byte a = _ := byte_plotAll h [p] k a
    rw [e3] at e2
    have hcfg : (s.plotPixel p.1 p.2 k).cfg = s.cfg := rfl
    rw [hcfg] at e2
    simp only [State.byte] at e1 e2
    rw [e1, e2]
    rw [plotted_cons, plotted_cons, plotted_nil]
    by_cases hr : inRange s.cfg p.1 p.2 = true
    · simp only [if_pos hr, mem_insertNumber]
      split_ifs <;> simp_all
    · simp only [if_neg hr]
      split_ifs <;> simp_all
  show ({ s with fb := (s.plotAll (p :: ps) k).fb } : State) = _
  rw [hfb]
  rfl

/-! ### Transmitting -/

/-- All a transmitting step can do (R40). -/
theorem transmitted_cases {s t : State} :
    (s.txReady = true ∧ s.transmitted t = .next t) ∨
      (s.txReady = false ∧ s.transmitted t = .fault .transportStalled) := by
  unfold State.transmitted
  cases s.txReady <;> simp

theorem transmitted_next {s t u : State} (h : s.transmitted t = .next u) : s.txReady = true ∧ u = t := by
  rcases @transmitted_cases s t with ⟨hr, he⟩ | ⟨-, he⟩
  · rw [he] at h
    exact ⟨hr, (Host.Outcome.next.inj h).symm⟩
  · rw [he] at h
    cases h

end Sys2Proof.Machine
end

