-- ==== Sys2Proof/Laws/PerInstr.lean ====
section
/-! SUPPORT. Facts about every command as syntax, one lemma per constructor. -/

namespace Sys2Proof.Laws.EncodedOpcode

open Sys2Proof

/-- The word of a command carries its row's OP value (R71, R73). -/
def Statement (i : Instr) : Prop := (encode i).extractLsb' 0 8 = i.opcode.code

/-- The OP field of a word is the OP of its fields. -/
theorem of_fields {i : Instr} (h : (fieldsOf i).op = i.opcode.code) : Statement i := by
  have := congrArg Fields.op (unpack_encode i)
  rw [h] at this
  exact this

theorem nop : Statement .nop := of_fields rfl
theorem setPixel (x y : Nat) (color : Color) : Statement (.setPixel x y color) := of_fields rfl
theorem fillColor (color : Color) : Statement (.fillColor color) := of_fields rfl
theorem rectFilled (x y w h : Nat) (color : Color) : Statement (.rectFilled x y w h color) := of_fields rfl
theorem rectColor (x1 y1 x2 y2 : Nat) (color : Color) : Statement (.rectColor x1 y1 x2 y2 color) := of_fields rfl
theorem hlineColor (x y length : Nat) (color : Color) : Statement (.hlineColor x y length color) := of_fields rfl
theorem vlineColor (x y length : Nat) (color : Color) : Statement (.vlineColor x y length color) := of_fields rfl
theorem lineColor (x1 y1 x2 y2 : Nat) (color : Color) : Statement (.lineColor x1 y1 x2 y2 color) := of_fields rfl
theorem drawPixel (x y : Nat) (flag : Bool) : Statement (.drawPixel x y flag) := of_fields rfl
theorem fill (flag : Bool) : Statement (.fill flag) := of_fields rfl
theorem drawRect (x1 y1 x2 y2 : Nat) (flag : Bool) : Statement (.drawRect x1 y1 x2 y2 flag) := of_fields rfl
theorem drawHline (x y length : Nat) (flag : Bool) : Statement (.drawHline x y length flag) := of_fields rfl
theorem drawVline (x y length : Nat) (flag : Bool) : Statement (.drawVline x y length flag) := of_fields rfl
theorem drawLine (x1 y1 x2 y2 : Nat) (flag : Bool) : Statement (.drawLine x1 y1 x2 y2 flag) := of_fields rfl
theorem rgb565 (r g b : Byte) : Statement (.rgb565 r g b) := of_fields rfl
theorem readPixel (x y : Nat) : Statement (.readPixel x y) := of_fields rfl
theorem getWidth : Statement .getWidth := of_fields rfl
theorem getHeight : Statement .getHeight := of_fields rfl
theorem setFg (color : Color) : Statement (.setFg color) := of_fields rfl
theorem setBg (color : Color) : Statement (.setBg color) := of_fields rfl
theorem setAccent (color : Color) : Statement (.setAccent color) := of_fields rfl
theorem setTheme (fg bg accent : Color) : Statement (.setTheme fg bg accent) := of_fields rfl
theorem getFg : Statement .getFg := of_fields rfl
theorem getBg : Statement .getBg := of_fields rfl
theorem getAccent : Statement .getAccent := of_fields rfl
theorem update : Statement .update := of_fields rfl
theorem clearStatus : Statement .clearStatus := of_fields rfl

end Sys2Proof.Laws.EncodedOpcode
end

