-- ==== Sys2Proof/Laws/State.lean ====
section
/-! SUPPORT. What each update of the state leaves in each field, so that no later proof unfolds a record. -/

namespace Sys2Proof.Machine

section

variable (s : State)

@[simp] theorem plotAll_cfg (ps : List Point) (k : Color) : (s.plotAll ps k).cfg = s.cfg := rfl
@[simp] theorem plotAll_fb (ps : List Point) (k : Color) : (s.plotAll ps k).fb = s.fb.paint k (plotted s.cfg ps) := rfl
@[simp] theorem plotAll_fg (ps : List Point) (k : Color) : (s.plotAll ps k).fg = s.fg := rfl
@[simp] theorem plotAll_bg (ps : List Point) (k : Color) : (s.plotAll ps k).bg = s.bg := rfl
@[simp] theorem plotAll_acc (ps : List Point) (k : Color) : (s.plotAll ps k).acc = s.acc := rfl
@[simp] theorem plotAll_result (ps : List Point) (k : Color) : (s.plotAll ps k).result = s.result := rfl
@[simp] theorem plotAll_status (ps : List Point) (k : Color) : (s.plotAll ps k).status = s.status := rfl
@[simp] theorem plotAll_tx (ps : List Point) (k : Color) : (s.plotAll ps k).tx = s.tx := rfl
@[simp] theorem plotAll_cmdReady (ps : List Point) (k : Color) : (s.plotAll ps k).cmdReady = s.cmdReady := rfl
@[simp] theorem plotAll_txReady (ps : List Point) (k : Color) : (s.plotAll ps k).txReady = s.txReady := rfl
@[simp] theorem plotAll_port (ps : List Point) (k : Color) : (s.plotAll ps k).port = s.port := rfl

@[simp] theorem plotPixel_cfg (x y : Nat) (k : Color) : (s.plotPixel x y k).cfg = s.cfg := rfl
@[simp] theorem plotPixel_fb (x y : Nat) (k : Color) : (s.plotPixel x y k).fb = s.fb.paint k (plotted s.cfg [(x, y)]) := rfl
@[simp] theorem plotPixel_fg (x y : Nat) (k : Color) : (s.plotPixel x y k).fg = s.fg := rfl
@[simp] theorem plotPixel_bg (x y : Nat) (k : Color) : (s.plotPixel x y k).bg = s.bg := rfl
@[simp] theorem plotPixel_acc (x y : Nat) (k : Color) : (s.plotPixel x y k).acc = s.acc := rfl
@[simp] theorem plotPixel_result (x y : Nat) (k : Color) : (s.plotPixel x y k).result = s.result := rfl
@[simp] theorem plotPixel_status (x y : Nat) (k : Color) : (s.plotPixel x y k).status = s.status := rfl
@[simp] theorem plotPixel_tx (x y : Nat) (k : Color) : (s.plotPixel x y k).tx = s.tx := rfl
@[simp] theorem plotPixel_cmdReady (x y : Nat) (k : Color) : (s.plotPixel x y k).cmdReady = s.cmdReady := rfl
@[simp] theorem plotPixel_txReady (x y : Nat) (k : Color) : (s.plotPixel x y k).txReady = s.txReady := rfl
@[simp] theorem plotPixel_port (x y : Nat) (k : Color) : (s.plotPixel x y k).port = s.port := rfl

@[simp] theorem fillAll_cfg (k : Color) : (s.fillAll k).cfg = s.cfg := rfl
@[simp] theorem fillAll_fb (k : Color) : (s.fillAll k).fb = s.fb.paint k (List.range' 0 (s.cfg.W * s.cfg.H)) := rfl
@[simp] theorem fillAll_fg (k : Color) : (s.fillAll k).fg = s.fg := rfl
@[simp] theorem fillAll_bg (k : Color) : (s.fillAll k).bg = s.bg := rfl
@[simp] theorem fillAll_acc (k : Color) : (s.fillAll k).acc = s.acc := rfl
@[simp] theorem fillAll_result (k : Color) : (s.fillAll k).result = s.result := rfl
@[simp] theorem fillAll_status (k : Color) : (s.fillAll k).status = s.status := rfl
@[simp] theorem fillAll_tx (k : Color) : (s.fillAll k).tx = s.tx := rfl
@[simp] theorem fillAll_cmdReady (k : Color) : (s.fillAll k).cmdReady = s.cmdReady := rfl
@[simp] theorem fillAll_txReady (k : Color) : (s.fillAll k).txReady = s.txReady := rfl
@[simp] theorem fillAll_port (k : Color) : (s.fillAll k).port = s.port := rfl

@[simp] theorem setResult_cfg (v : BitVec 16) : (s.setResult v).cfg = s.cfg := rfl
@[simp] theorem setResult_fb (v : BitVec 16) : (s.setResult v).fb = s.fb := rfl
@[simp] theorem setResult_fg (v : BitVec 16) : (s.setResult v).fg = s.fg := rfl
@[simp] theorem setResult_bg (v : BitVec 16) : (s.setResult v).bg = s.bg := rfl
@[simp] theorem setResult_acc (v : BitVec 16) : (s.setResult v).acc = s.acc := rfl
@[simp] theorem setResult_result (v : BitVec 16) : (s.setResult v).result = v := rfl
@[simp] theorem setResult_status (v : BitVec 16) : (s.setResult v).status = s.status := rfl
@[simp] theorem setResult_tx (v : BitVec 16) : (s.setResult v).tx = s.tx := rfl
@[simp] theorem setResult_cmdReady (v : BitVec 16) : (s.setResult v).cmdReady = s.cmdReady := rfl
@[simp] theorem setResult_txReady (v : BitVec 16) : (s.setResult v).txReady = s.txReady := rfl
@[simp] theorem setResult_port (v : BitVec 16) : (s.setResult v).port = s.port := rfl

@[simp] theorem setFg_cfg (v : Color) : (s.setFg v).cfg = s.cfg := rfl
@[simp] theorem setFg_fb (v : Color) : (s.setFg v).fb = s.fb := rfl
@[simp] theorem setFg_fg (v : Color) : (s.setFg v).fg = v := rfl
@[simp] theorem setFg_bg (v : Color) : (s.setFg v).bg = s.bg := rfl
@[simp] theorem setFg_acc (v : Color) : (s.setFg v).acc = s.acc := rfl
@[simp] theorem setFg_result (v : Color) : (s.setFg v).result = s.result := rfl
@[simp] theorem setFg_status (v : Color) : (s.setFg v).status = s.status := rfl
@[simp] theorem setFg_tx (v : Color) : (s.setFg v).tx = s.tx := rfl
@[simp] theorem setFg_cmdReady (v : Color) : (s.setFg v).cmdReady = s.cmdReady := rfl
@[simp] theorem setFg_txReady (v : Color) : (s.setFg v).txReady = s.txReady := rfl
@[simp] theorem setFg_port (v : Color) : (s.setFg v).port = s.port := rfl

@[simp] theorem setBg_cfg (v : Color) : (s.setBg v).cfg = s.cfg := rfl
@[simp] theorem setBg_fb (v : Color) : (s.setBg v).fb = s.fb := rfl
@[simp] theorem setBg_fg (v : Color) : (s.setBg v).fg = s.fg := rfl
@[simp] theorem setBg_bg (v : Color) : (s.setBg v).bg = v := rfl
@[simp] theorem setBg_acc (v : Color) : (s.setBg v).acc = s.acc := rfl
@[simp] theorem setBg_result (v : Color) : (s.setBg v).result = s.result := rfl
@[simp] theorem setBg_status (v : Color) : (s.setBg v).status = s.status := rfl
@[simp] theorem setBg_tx (v : Color) : (s.setBg v).tx = s.tx := rfl
@[simp] theorem setBg_cmdReady (v : Color) : (s.setBg v).cmdReady = s.cmdReady := rfl
@[simp] theorem setBg_txReady (v : Color) : (s.setBg v).txReady = s.txReady := rfl
@[simp] theorem setBg_port (v : Color) : (s.setBg v).port = s.port := rfl

@[simp] theorem setAcc_cfg (v : Color) : (s.setAcc v).cfg = s.cfg := rfl
@[simp] theorem setAcc_fb (v : Color) : (s.setAcc v).fb = s.fb := rfl
@[simp] theorem setAcc_fg (v : Color) : (s.setAcc v).fg = s.fg := rfl
@[simp] theorem setAcc_bg (v : Color) : (s.setAcc v).bg = s.bg := rfl
@[simp] theorem setAcc_acc (v : Color) : (s.setAcc v).acc = v := rfl
@[simp] theorem setAcc_result (v : Color) : (s.setAcc v).result = s.result := rfl
@[simp] theorem setAcc_status (v : Color) : (s.setAcc v).status = s.status := rfl
@[simp] theorem setAcc_tx (v : Color) : (s.setAcc v).tx = s.tx := rfl
@[simp] theorem setAcc_cmdReady (v : Color) : (s.setAcc v).cmdReady = s.cmdReady := rfl
@[simp] theorem setAcc_txReady (v : Color) : (s.setAcc v).txReady = s.txReady := rfl
@[simp] theorem setAcc_port (v : Color) : (s.setAcc v).port = s.port := rfl

@[simp] theorem setStatus_cfg (v : BitVec 16) : (s.setStatus v).cfg = s.cfg := rfl
@[simp] theorem setStatus_fb (v : BitVec 16) : (s.setStatus v).fb = s.fb := rfl
@[simp] theorem setStatus_fg (v : BitVec 16) : (s.setStatus v).fg = s.fg := rfl
@[simp] theorem setStatus_bg (v : BitVec 16) : (s.setStatus v).bg = s.bg := rfl
@[simp] theorem setStatus_acc (v : BitVec 16) : (s.setStatus v).acc = s.acc := rfl
@[simp] theorem setStatus_result (v : BitVec 16) : (s.setStatus v).result = s.result := rfl
@[simp] theorem setStatus_status (v : BitVec 16) : (s.setStatus v).status = v := rfl
@[simp] theorem setStatus_tx (v : BitVec 16) : (s.setStatus v).tx = s.tx := rfl
@[simp] theorem setStatus_cmdReady (v : BitVec 16) : (s.setStatus v).cmdReady = s.cmdReady := rfl
@[simp] theorem setStatus_txReady (v : BitVec 16) : (s.setStatus v).txReady = s.txReady := rfl
@[simp] theorem setStatus_port (v : BitVec 16) : (s.setStatus v).port = s.port := rfl

@[simp] theorem clearStatus_cfg : (s.clearStatus).cfg = s.cfg := rfl
@[simp] theorem clearStatus_fb : (s.clearStatus).fb = s.fb := rfl
@[simp] theorem clearStatus_fg : (s.clearStatus).fg = s.fg := rfl
@[simp] theorem clearStatus_bg : (s.clearStatus).bg = s.bg := rfl
@[simp] theorem clearStatus_acc : (s.clearStatus).acc = s.acc := rfl
@[simp] theorem clearStatus_result : (s.clearStatus).result = s.result := rfl
@[simp] theorem clearStatus_status : (s.clearStatus).status = 0x0000 := rfl
@[simp] theorem clearStatus_tx : (s.clearStatus).tx = s.tx := rfl
@[simp] theorem clearStatus_cmdReady : (s.clearStatus).cmdReady = s.cmdReady := rfl
@[simp] theorem clearStatus_txReady : (s.clearStatus).txReady = s.txReady := rfl
@[simp] theorem clearStatus_port : (s.clearStatus).port = s.port := rfl

@[simp] theorem raiseIllegal_cfg : (s.raiseIllegal).cfg = s.cfg := rfl
@[simp] theorem raiseIllegal_fb : (s.raiseIllegal).fb = s.fb := rfl
@[simp] theorem raiseIllegal_fg : (s.raiseIllegal).fg = s.fg := rfl
@[simp] theorem raiseIllegal_bg : (s.raiseIllegal).bg = s.bg := rfl
@[simp] theorem raiseIllegal_acc : (s.raiseIllegal).acc = s.acc := rfl
@[simp] theorem raiseIllegal_result : (s.raiseIllegal).result = s.result := rfl
@[simp] theorem raiseIllegal_status : (s.raiseIllegal).status = s.status ||| 0x0001 := rfl
@[simp] theorem raiseIllegal_tx : (s.raiseIllegal).tx = s.tx := rfl
@[simp] theorem raiseIllegal_cmdReady : (s.raiseIllegal).cmdReady = s.cmdReady := rfl
@[simp] theorem raiseIllegal_txReady : (s.raiseIllegal).txReady = s.txReady := rfl
@[simp] theorem raiseIllegal_port : (s.raiseIllegal).port = s.port := rfl

@[simp] theorem emit_cfg (es : List TxEvent) : (s.emit es).cfg = s.cfg := rfl
@[simp] theorem emit_fb (es : List TxEvent) : (s.emit es).fb = s.fb := rfl
@[simp] theorem emit_fg (es : List TxEvent) : (s.emit es).fg = s.fg := rfl
@[simp] theorem emit_bg (es : List TxEvent) : (s.emit es).bg = s.bg := rfl
@[simp] theorem emit_acc (es : List TxEvent) : (s.emit es).acc = s.acc := rfl
@[simp] theorem emit_result (es : List TxEvent) : (s.emit es).result = s.result := rfl
@[simp] theorem emit_status (es : List TxEvent) : (s.emit es).status = s.status := rfl
@[simp] theorem emit_tx (es : List TxEvent) : (s.emit es).tx = s.tx ++ es := rfl
@[simp] theorem emit_cmdReady (es : List TxEvent) : (s.emit es).cmdReady = s.cmdReady := rfl
@[simp] theorem emit_txReady (es : List TxEvent) : (s.emit es).txReady = s.txReady := rfl
@[simp] theorem emit_port (es : List TxEvent) : (s.emit es).port = s.port := rfl

@[simp] theorem takeSample_cfg (p : PortSample) (rest : List PortSample) : (s.takeSample p rest).cfg = s.cfg := rfl
@[simp] theorem takeSample_fb (p : PortSample) (rest : List PortSample) : (s.takeSample p rest).fb = s.fb := rfl
@[simp] theorem takeSample_fg (p : PortSample) (rest : List PortSample) : (s.takeSample p rest).fg = s.fg := rfl
@[simp] theorem takeSample_bg (p : PortSample) (rest : List PortSample) : (s.takeSample p rest).bg = s.bg := rfl
@[simp] theorem takeSample_acc (p : PortSample) (rest : List PortSample) : (s.takeSample p rest).acc = s.acc := rfl
@[simp] theorem takeSample_result (p : PortSample) (rest : List PortSample) : (s.takeSample p rest).result = s.result := rfl
@[simp] theorem takeSample_status (p : PortSample) (rest : List PortSample) : (s.takeSample p rest).status = s.status := rfl
@[simp] theorem takeSample_tx (p : PortSample) (rest : List PortSample) : (s.takeSample p rest).tx = s.tx := rfl
@[simp] theorem takeSample_cmdReady (p : PortSample) (rest : List PortSample) : (s.takeSample p rest).cmdReady = s.cmdReady := rfl
@[simp] theorem takeSample_txReady (p : PortSample) (rest : List PortSample) : (s.takeSample p rest).txReady = p.txReady := rfl
@[simp] theorem takeSample_port (p : PortSample) (rest : List PortSample) : (s.takeSample p rest).port = rest := rfl

@[simp] theorem resetSequence_cfg : (s.resetSequence).cfg = s.cfg := rfl
@[simp] theorem resetSequence_fb : (s.resetSequence).fb = s.fb.paint 0x0000 (List.range' 0 (s.cfg.W * s.cfg.H)) := rfl
@[simp] theorem resetSequence_fg : (s.resetSequence).fg = 0xFFFF := rfl
@[simp] theorem resetSequence_bg : (s.resetSequence).bg = 0x0000 := rfl
@[simp] theorem resetSequence_acc : (s.resetSequence).acc = 0x07FF := rfl
@[simp] theorem resetSequence_result : (s.resetSequence).result = 0x0000 := rfl
@[simp] theorem resetSequence_status : (s.resetSequence).status = 0x0000 := rfl
@[simp] theorem resetSequence_tx : (s.resetSequence).tx = .panelInit :: (s.fillAll 0x0000).flushEvents := rfl
@[simp] theorem resetSequence_cmdReady : (s.resetSequence).cmdReady = true := rfl
@[simp] theorem resetSequence_txReady : (s.resetSequence).txReady = s.txReady := rfl
@[simp] theorem resetSequence_port : (s.resetSequence).port = s.port := rfl

@[simp] theorem withFetchWord_cfg (nbits w : Nat) : (s.withFetchWord nbits w).cfg = s.cfg := rfl
@[simp] theorem withFetchWord_fb (nbits w : Nat) : (s.withFetchWord nbits w).fb = s.fb := rfl
@[simp] theorem withFetchWord_fg (nbits w : Nat) : (s.withFetchWord nbits w).fg = s.fg := rfl
@[simp] theorem withFetchWord_bg (nbits w : Nat) : (s.withFetchWord nbits w).bg = s.bg := rfl
@[simp] theorem withFetchWord_acc (nbits w : Nat) : (s.withFetchWord nbits w).acc = s.acc := rfl
@[simp] theorem withFetchWord_result (nbits w : Nat) : (s.withFetchWord nbits w).result = s.result := rfl
@[simp] theorem withFetchWord_status (nbits w : Nat) : (s.withFetchWord nbits w).status = s.status := rfl
@[simp] theorem withFetchWord_tx (nbits w : Nat) : (s.withFetchWord nbits w).tx = s.tx := rfl
@[simp] theorem withFetchWord_cmdReady (nbits w : Nat) : (s.withFetchWord nbits w).cmdReady = true := rfl
@[simp] theorem withFetchWord_txReady (nbits w : Nat) : (s.withFetchWord nbits w).txReady = s.txReady := rfl
@[simp] theorem withFetchWord_port (nbits w : Nat) : (s.withFetchWord nbits w).port = presenting (commandOfBits nbits w) :: s.port := rfl

end

/-! ### Fields after reset (R41) -/

section

variable (c : Config)

@[simp] theorem resetWith_cfg : (State.resetWith c).cfg = c := rfl
@[simp] theorem resetWith_fb : (State.resetWith c).fb = [] := rfl
@[simp] theorem resetWith_fg : (State.resetWith c).fg = 0xFFFF := rfl
@[simp] theorem resetWith_bg : (State.resetWith c).bg = 0x0000 := rfl
@[simp] theorem resetWith_acc : (State.resetWith c).acc = 0x07FF := rfl
@[simp] theorem resetWith_result : (State.resetWith c).result = 0x0000 := rfl
@[simp] theorem resetWith_status : (State.resetWith c).status = 0x0000 := rfl
@[simp] theorem resetWith_cmdReady : (State.resetWith c).cmdReady = true := rfl
@[simp] theorem resetWith_txReady : (State.resetWith c).txReady = true := rfl
@[simp] theorem resetWith_port : (State.resetWith c).port = [] := rfl

end

end Sys2Proof.Machine
end

