-- ==== Sys2Proof/Laws/Step.lean ====
section
/-! SUPPORT. All a step can do, said once: wait, reset, refuse a word by setting ILL, or run the decoded command, which
for an UPDATE the transport makes wait may end in a reset. -/

namespace Sys2Proof.Machine

/-! ### Waiting for the transport -/

/-- The sample taken last is the one that counts. -/
@[simp] theorem takeSample_takeSample (s : State) (p q : PortSample) (ps qs : List PortSample) :
    (s.takeSample p ps).takeSample q qs = s.takeSample q qs := rfl

/-- Busy edges that neither accept nor reset are passed over. -/
theorem untilAcceptOrReset_append {ps : List PortSample} (h : ∀ q ∈ ps, q.rst = false ∧ q.txReady = false)
    (qs : List PortSample) : untilAcceptOrReset (ps ++ qs) = untilAcceptOrReset qs := by
  refine List.dropWhile_append_of_pos fun q hq => ?_
  simp [h q hq]

/-- The edge that ends an UPDATE's wait comes after busy edges that neither accept nor reset. -/
theorem untilAcceptOrReset_eq_cons {ps rest : List PortSample} {q : PortSample}
    (h : untilAcceptOrReset ps = q :: rest) :
    ∃ busy, ps = busy ++ q :: rest ∧ ∀ r ∈ busy, r.rst = false ∧ r.txReady = false := by
  refine ⟨ps.takeWhile fun q => !(q.rst || q.txReady), ?_, fun r hr => ?_⟩
  · rw [← h]
    exact List.takeWhile_append_dropWhile.symm
  · simpa using List.mem_takeWhile_imp hr

/-- Edges at which the transport does not accept are passed over. -/
theorem untilAccept_append {ps : List PortSample} (h : ∀ q ∈ ps, q.txReady = false) (qs : List PortSample) :
    untilAccept (ps ++ qs) = untilAccept qs := by
  refine List.dropWhile_append_of_pos fun q hq => ?_
  simp [h q hq]

/-- If a reset answers next, it is the reset sequence, run at an edge at which the transport accepts. -/
theorem runReset_next {s t : State} (h : runReset s = .next t) :
    ∃ q rest, q.txReady = true ∧ t = (s.takeSample q rest).resetSequence := by
  unfold runReset at h
  split_ifs at h with hs
  · exact ⟨⟨false, false, 0, s.txReady⟩, s.port, hs, (transmitted_next h).2⟩
  · split at h
    · exact absurd (transmitted_next h).1 hs
    · next q rest _ =>
      obtain ⟨hq, rfl⟩ := transmitted_next h
      exact ⟨q, rest, hq, rfl⟩

/-- If an accepted UPDATE answers next, it completed at some edge, or it was abandoned to a reset that a sample asked for
while it still waited. -/
theorem runUpdate_next {s t : State} (h : runUpdate s = .next t) :
    (∃ q rest, exec .update (s.takeSample q rest) = .next t) ∨
      (s.txReady = false ∧
        (∃ busy q rest, s.port = busy ++ q :: rest ∧ (∀ r ∈ busy, r.rst = false ∧ r.txReady = false) ∧ q.rst = true) ∧
        ∃ q rest, q.txReady = true ∧ t = (s.takeSample q rest).resetSequence) := by
  unfold runUpdate at h
  split_ifs at h with hs
  · exact .inl ⟨⟨false, false, 0, s.txReady⟩, s.port, h⟩
  · split at h
    · exact absurd (transmitted_next h).1 hs
    · next q rest hq =>
      split_ifs at h with hr
      · obtain ⟨busy, hp, hb⟩ := untilAcceptOrReset_eq_cons hq
        exact .inr ⟨by simpa using hs, ⟨busy, q, rest, hp, hb, hr⟩, by simpa only [takeSample_takeSample] using runReset_next h⟩
      · exact .inl ⟨q, rest, h⟩

/-- A command other than UPDATE, or any on an accepting transport, runs at its own edge. -/
theorem runCommand_eq {i : Instr} {s : State} (h : i ≠ .update ∨ s.txReady = true) : runCommand i s = exec i s := by
  unfold runCommand runUpdate
  rcases h with h | h
  · rw [if_neg h]
  · split_ifs with hi
    · rw [hi]
    · rfl

/-- If an accepted legal command answers next, it has its own effect, at its edge or at a later one, or it is an UPDATE
abandoned to a reset. -/
theorem runCommand_next {i : Instr} {s t : State} (h : runCommand i s = .next t) :
    (∃ q rest, exec i (s.takeSample q rest) = .next t) ∨
      (i = .update ∧ s.txReady = false ∧
        (∃ busy q rest, s.port = busy ++ q :: rest ∧ (∀ r ∈ busy, r.rst = false ∧ r.txReady = false) ∧ q.rst = true) ∧
        ∃ q rest, q.txReady = true ∧ t = (s.takeSample q rest).resetSequence) := by
  by_cases hi : i = .update
  · subst hi
    rw [runCommand, if_pos rfl] at h
    exact (runUpdate_next h).imp id fun h => ⟨rfl, h⟩
  · rw [runCommand_eq (.inl hi)] at h
    exact .inl ⟨⟨false, false, 0, s.txReady⟩, s.port, h⟩

/-! ### The step -/

/-- All an accepted word can do (R81, R241). -/
theorem acceptCommand_cases (w : Command) (s : State) :
    (∃ i, decode w = .legal i ∧ acceptCommand w s = runCommand i s) ∨
      (∃ why, decode w = .illegal why ∧ acceptCommand w s = .next s.raiseIllegal) := by
  unfold acceptCommand
  cases h : decode w with
  | legal i => exact .inl ⟨i, rfl, rfl⟩
  | illegal why => exact .inr ⟨why, rfl, rfl⟩

/-- If a step answers next, then the host presented nothing, or the reset sequence ran, asked for by this sample or by
the one that abandoned a waiting UPDATE, or only the sample is gone, or an illegal word was consumed, or the decoded command
had its effect, at this edge or, for an UPDATE made to wait, at a later one. -/
theorem step_cases {s t : State} (h : step s = .next t) :
    (s.port = [] ∧ t = s) ∨
      ∃ p rest, s.port = p :: rest ∧
        (((p.rst = true ∨ s.AbandonsUpdate) ∧
            ∃ q later, q.txReady = true ∧ t = (s.takeSample q later).resetSequence) ∨
          (p.rst = false ∧ (p.cmdValid && s.cmdReady) = false ∧ t = s.takeSample p rest) ∨
          (p.rst = false ∧ p.cmdValid = true ∧ s.cmdReady = true ∧ (∃ why, decode p.cmdWord = .illegal why) ∧
            t = (s.takeSample p rest).raiseIllegal) ∨
          (p.rst = false ∧ p.cmdValid = true ∧ s.cmdReady = true ∧
            ∃ i, decode p.cmdWord = .legal i ∧ ∃ q later, exec i (s.takeSample q later) = .next t)) := by
  unfold step at h
  split at h
  · next hp => exact .inl ⟨hp, (Host.Outcome.next.inj h).symm⟩
  · next p rest hp =>
    refine .inr ⟨p, rest, hp, ?_⟩
    unfold clockEdge at h
    split at h
    · next hr => exact .inl ⟨.inl hr, by simpa only [takeSample_takeSample] using runReset_next h⟩
    · next hr =>
      have hr : p.rst = false := by simpa using hr
      split at h
      · next hv =>
        obtain ⟨hv, hready⟩ : p.cmdValid = true ∧ s.cmdReady = true := by simpa using hv
        rcases acceptCommand_cases p.cmdWord (s.takeSample p rest) with ⟨i, hd, he⟩ | ⟨why, hd, he⟩
        · rw [he] at h
          rcases runCommand_next h with h | ⟨rfl, htx, ⟨busy, q, later, hq, hb, hrst⟩, h⟩
          · exact .inr (.inr (.inr ⟨hr, hv, hready, i, hd, h⟩))
          · exact .inl ⟨.inr ⟨p, busy, q, later, by rw [hp, ← hq]; rfl, hr, hv, hready, hd, htx, hb, hrst⟩, h⟩
        · rw [he] at h
          exact .inr (.inr (.inl ⟨hr, hv, hready, ⟨why, hd⟩, (Host.Outcome.next.inj h).symm⟩))
      · next hv =>
        exact .inr (.inl ⟨hr, by simpa using hv, (Host.Outcome.next.inj h).symm⟩)

/-- The first command a host presents to a reset FPW is the next to run: `withFetchWord` places it. -/
theorem step_withFetchWord (s : State) (nbits w : Nat) :
    step (s.withFetchWord nbits w) =
      acceptCommand (commandOfBits nbits w)
        (State.takeSample { s with cmdReady := true } (presenting (commandOfBits nbits w)) s.port) := rfl

/-- An invariant that holds at reset and that every step keeps holds in every state a run reaches. -/
theorem inv_of_reaches {P : State → Prop} (hstep : ∀ s t, P s → step s = .next t → P t) {s t : State}
    (hs : P s) (h : Reaches s t) : P t := by
  induction h with
  | refl => exact hs
  | next _ hn ih => exact hstep _ _ ih hn

end Sys2Proof.Machine
end

