-- ==== Sys2Proof/Tests/Slice0.lean ====
section
/-! SUPPORT. Tests of the model against the spec's own vectors (95_test_vectors.md, R84), the smoke test of
well-formedness, and a witness for the hypotheses of every statement. Every expected value is the spec's. -/

namespace Sys2Proof.Tests

open Sys2Proof Sys2Proof.Machine Sys2Proof.Claims

/-! ### Helpers -/

/-- An 8 by 4 FPW after reset, the configuration of 95_test_vectors.md section 2.4. -/
def board : State := State.resetWith ⟨7, 3⟩

/-- A 4 by 3 FPW after reset, the configuration of program P1. -/
def small : State := State.resetWith ⟨3, 2⟩

/-- The next state, if there is one. -/
def next? : Host.Outcome State Fault Refusal → Option State
  | .next t => some t
  | .fault _ => none
  | .refused _ => none

/-- What a next state shows. -/
def shows {α : Type} (f : State → α) (o : Host.Outcome State Fault Refusal) : Option α := (next? o).map f

/-- The pixels of a colour, row by row. -/
def pixelsOf (k : Color) (s : State) : List Point :=
  ((List.range s.cfg.H).flatMap fun y => (List.range s.cfg.W).map fun x => (x, y)).filter fun p =>
    s.pix p.1 p.2 == k

/-- `s` with a command presented next, on an accepting transport. -/
def offered (w : Command) (s : State) : State := { s with port := [presenting w] }

/-- `s` with one input sample next. -/
def sampled (p : PortSample) (s : State) : State := { s with port := [p] }

/-- The 4 by 3 FPW of section 2.6 after SET_PIXEL 1, 1, 0xF800. -/
def drawnSmall : State := { small with fb := [(10, 0xF8)] }

/-! ### Decoding: a word of every row, written out from the field table -/

theorem test_decode_nop : decode 0x0000_0000_0000_0000_0000_0000 = .legal .nop := by decide
theorem test_decode_set_pixel : decode 0x0000_0000_0004_0003_F800_0001 = .legal (.setPixel 3 4 0xF800) := by decide
theorem test_decode_fill_color : decode 0x0000_0000_0000_0000_07E0_0002 = .legal (.fillColor 0x07E0) := by decide
theorem test_decode_rect_filled :
    decode 0x0004_0003_0002_0001_001F_0003 = .legal (.rectFilled 1 2 3 4 0x001F) := by decide
theorem test_decode_rect_color :
    decode 0x0005_0006_0001_0001_07E0_0004 = .legal (.rectColor 1 1 6 5 0x07E0) := by decide
theorem test_decode_hline_color :
    decode 0x0000_0003_0000_0001_FFFF_0005 = .legal (.hlineColor 1 0 3 0xFFFF) := by decide
theorem test_decode_vline_color :
    decode 0x0000_0009_0002_0000_001F_0006 = .legal (.vlineColor 0 2 9 0x001F) := by decide
theorem test_decode_line_color :
    decode 0x0005_000A_0000_0000_FFFF_0007 = .legal (.lineColor 0 0 10 5 0xFFFF) := by decide
theorem test_decode_draw_pixel : decode 0x0000_0000_0001_0003_0000_0011 = .legal (.drawPixel 3 1 false) := by decide
theorem test_decode_fill : decode 0x0000_0000_0000_0000_0000_0112 = .legal (.fill true) := by decide
theorem test_decode_draw_rect :
    decode 0x0001_0001_0000_0000_0000_0014 = .legal (.drawRect 0 0 1 1 false) := by decide
theorem test_decode_draw_hline :
    decode 0x0000_000A_0005_0005_0000_0115 = .legal (.drawHline 5 5 10 true) := by decide
theorem test_decode_draw_vline :
    decode 0x0000_0002_0004_0007_0000_0016 = .legal (.drawVline 7 4 2 false) := by decide
theorem test_decode_draw_line :
    decode 0x0005_000A_0000_0000_0000_0117 = .legal (.drawLine 0 0 10 5 true) := by decide
theorem test_decode_rgb565 : decode 0x0000_0056_0034_0012_0000_0020 = .legal (.rgb565 0x12 0x34 0x56) := by decide
theorem test_decode_read_pixel : decode 0x0000_0000_0000_0004_0000_0021 = .legal (.readPixel 4 0) := by decide
theorem test_decode_get_width : decode 0x0000_0000_0000_0000_0000_0022 = .legal .getWidth := by decide
theorem test_decode_get_height : decode 0x0000_0000_0000_0000_0000_0023 = .legal .getHeight := by decide
theorem test_decode_set_fg : decode 0x0000_0000_0000_0000_11AA_0030 = .legal (.setFg 0x11AA) := by decide
theorem test_decode_set_bg : decode 0x0000_0000_0000_0000_F800_0031 = .legal (.setBg 0xF800) := by decide
theorem test_decode_set_accent : decode 0x0000_0000_0000_0000_1234_0032 = .legal (.setAccent 0x1234) := by decide
theorem test_decode_set_theme :
    decode 0x0000_07FF_0000_FFFF_0000_0033 = .legal (.setTheme 0xFFFF 0x0000 0x07FF) := by decide
theorem test_decode_get_fg : decode 0x0000_0000_0000_0000_0000_0034 = .legal .getFg := by decide
theorem test_decode_get_bg : decode 0x0000_0000_0000_0000_0000_0035 = .legal .getBg := by decide
theorem test_decode_get_accent : decode 0x0000_0000_0000_0000_0000_0036 = .legal .getAccent := by decide
theorem test_decode_update : decode 0x0000_0000_0000_0000_0000_0040 = .legal .update := by decide
theorem test_decode_clear_status : decode 0x0000_0000_0000_0000_0000_0041 = .legal .clearStatus := by decide

/-- 95_test_vectors.md section 2.1: ignored fields. -/
theorem test_decode_ignored_fields : decode 0xFFFF_FFFF_FFFF_FFFF_FFFF_0040 = .legal .update := by decide

/-- 95_test_vectors.md section 2.1: the illegal words, each by the check that refuses it first. -/
theorem test_decode_illegal :
    decode 0x0000_0000_0000_0000_0000_0101 = .illegal .flagNotAllowed ∧
    decode 0x0000_0000_0000_0000_0000_0013 = .illegal .undefinedOpcode ∧
    decode 0x0000_0000_0000_0000_0000_0213 = .illegal .undefinedOpcode ∧
    decode 0x0000_0000_0000_0000_0000_0201 = .illegal .reservedBits ∧
    decode 0x0000_0000_0000_01FF_0000_0020 = .illegal .channelTooWide ∧
    decode 0x0000_0100_0000_0000_0000_0020 = .illegal .channelTooWide ∧
    decode 0x0000_0000_0000_0000_0000_00FF = .illegal .undefinedOpcode ∧
    decode 0x0000_0000_0000_0000_0000_0140 = .illegal .flagNotAllowed := by decide

/-- The table numbers the word's bits as R71 does, so the row's own `match` word decodes to its command. -/
theorem test_decode_table_word : decodeTableWord 96 0x0000_0000_0004_0003_F800_0001 = some (.setPixel 3 4 0xF800) := by
  decide

/-! ### Well-formedness: an ill-formed term for each check, which the check refuses -/

theorem test_ill_formed_set_pixel :
    (Instr.setPixel 65536 0 0).wellFormed = false ∧ (Instr.setPixel 0 65536 0).wellFormed = false := by decide
theorem test_ill_formed_rect_filled :
    (Instr.rectFilled 65536 0 0 0 0).wellFormed = false ∧ (Instr.rectFilled 0 65536 0 0 0).wellFormed = false ∧
    (Instr.rectFilled 0 0 65536 0 0).wellFormed = false ∧ (Instr.rectFilled 0 0 0 65536 0).wellFormed = false := by decide
theorem test_ill_formed_rect_color :
    (Instr.rectColor 65536 0 0 0 0).wellFormed = false ∧ (Instr.rectColor 0 65536 0 0 0).wellFormed = false ∧
    (Instr.rectColor 0 0 65536 0 0).wellFormed = false ∧ (Instr.rectColor 0 0 0 65536 0).wellFormed = false := by decide
theorem test_ill_formed_hline_color :
    (Instr.hlineColor 65536 0 0 0).wellFormed = false ∧ (Instr.hlineColor 0 65536 0 0).wellFormed = false ∧
    (Instr.hlineColor 0 0 65536 0).wellFormed = false := by decide
theorem test_ill_formed_vline_color :
    (Instr.vlineColor 65536 0 0 0).wellFormed = false ∧ (Instr.vlineColor 0 65536 0 0).wellFormed = false ∧
    (Instr.vlineColor 0 0 65536 0).wellFormed = false := by decide
theorem test_ill_formed_line_color :
    (Instr.lineColor 65536 0 0 0 0).wellFormed = false ∧ (Instr.lineColor 0 65536 0 0 0).wellFormed = false ∧
    (Instr.lineColor 0 0 65536 0 0).wellFormed = false ∧ (Instr.lineColor 0 0 0 65536 0).wellFormed = false := by decide
theorem test_ill_formed_draw_pixel :
    (Instr.drawPixel 65536 0 true).wellFormed = false ∧ (Instr.drawPixel 0 65536 true).wellFormed = false := by decide
theorem test_ill_formed_draw_rect :
    (Instr.drawRect 65536 0 0 0 true).wellFormed = false ∧ (Instr.drawRect 0 65536 0 0 true).wellFormed = false ∧
    (Instr.drawRect 0 0 65536 0 true).wellFormed = false ∧ (Instr.drawRect 0 0 0 65536 true).wellFormed = false := by
  decide
theorem test_ill_formed_draw_hline :
    (Instr.drawHline 65536 0 0 true).wellFormed = false ∧ (Instr.drawHline 0 65536 0 true).wellFormed = false ∧
    (Instr.drawHline 0 0 65536 true).wellFormed = false := by decide
theorem test_ill_formed_draw_vline :
    (Instr.drawVline 65536 0 0 true).wellFormed = false ∧ (Instr.drawVline 0 65536 0 true).wellFormed = false ∧
    (Instr.drawVline 0 0 65536 true).wellFormed = false := by decide
theorem test_ill_formed_draw_line :
    (Instr.drawLine 65536 0 0 0 true).wellFormed = false ∧ (Instr.drawLine 0 65536 0 0 true).wellFormed = false ∧
    (Instr.drawLine 0 0 65536 0 true).wellFormed = false ∧ (Instr.drawLine 0 0 0 65536 true).wellFormed = false := by
  decide
theorem test_ill_formed_read_pixel :
    (Instr.readPixel 65536 0).wellFormed = false ∧ (Instr.readPixel 0 65536).wellFormed = false := by decide
theorem test_well_formed_at_the_limit :
    (Instr.rectFilled 65535 65535 65535 65535 0xFFFF).wellFormed = true ∧
    (Instr.drawLine 65535 65535 65535 65535 true).wellFormed = true := by decide

/-! ### One step of each command (95_test_vectors.md section 2; `y = 0` first) -/

/-- Section 2.2, 128 by 160. -/
theorem test_set_pixel :
    shows (fun t => (t.byte 1030, t.byte 1031, t.byte 1029, t.byte 1032)) (exec (.setPixel 3 4 0xF800) State.reset) =
      some (0xF8, 0x00, 0x00, 0x00) := by decide
/-- Section 2.2: `x = W`, `y = H` and `x = y = 65535` clip. -/
theorem test_set_pixel_clips :
    next? (exec (.setPixel 8 0 0xFFFF) board) = some board ∧ next? (exec (.setPixel 0 4 0xFFFF) board) = some board ∧
    next? (exec (.setPixel 65535 65535 0xFFFF) board) = some board := by decide
/-- Section 2.2: the last pixel. -/
theorem test_read_pixel :
    shows State.result (exec (.readPixel 3 1) { board with fb := [(22, 0xF8)] }) = some 0xF800 := by decide
/-- Section 2.2: out of range reads `0x0000`, whatever RESULT held. -/
theorem test_read_pixel_out_of_range :
    shows State.result (exec (.readPixel 0 4) { board with result := 0x1234 }) = some 0x0000 := by decide
theorem test_draw_pixel_on :
    shows (pixelsOf 0xF800) (exec (.drawPixel 5 3 true) { board with fg := 0xF800, acc := 0x1234 }) =
      some [(5, 3)] := by decide
theorem test_draw_pixel_off :
    shows (fun t => t.pix 0 0) (exec (.drawPixel 0 0 false) { board with fb := [(0, 0xFF), (1, 0xFF)] }) =
      some 0x0000 := by decide
theorem test_fill :
    shows (fun t => (pixelsOf 0x001F t).length) (exec (.fill false) { small with bg := 0x001F }) = some 12 := by decide
theorem test_fill_color :
    shows (fun t => t.fb.readBytes 0 t.cfg.fbBytes) (exec (.fillColor 0x07E0) small) =
      some [0x07, 0xE0, 0x07, 0xE0, 0x07, 0xE0, 0x07, 0xE0, 0x07, 0xE0, 0x07, 0xE0,
            0x07, 0xE0, 0x07, 0xE0, 0x07, 0xE0, 0x07, 0xE0, 0x07, 0xE0, 0x07, 0xE0] := by decide
/-- Section 2.4: cut at both edges. -/
theorem test_rect_filled :
    shows (pixelsOf 0xF800) (exec (.rectFilled 6 2 5 5 0xF800) board) = some [(6, 2), (7, 2), (6, 3), (7, 3)] := by decide
/-- Section 2.4: `w = 0` and `x = W` write nothing. -/
theorem test_rect_filled_empty :
    next? (exec (.rectFilled 0 0 0 4 0xF800) board) = some board ∧
    next? (exec (.rectFilled 8 0 1 1 0xF800) board) = some board := by decide
/-- Section 2.4: reversed corners, height 2. -/
theorem test_rect_color_reversed :
    shows (pixelsOf 0xF800) (exec (.rectColor 3 2 1 1 0xF800) board) =
      some [(1, 1), (2, 1), (3, 1), (1, 2), (2, 2), (3, 2)] := by decide
/-- Section 2.4: clipped right and bottom. -/
theorem test_rect_color_clipped :
    shows (pixelsOf 0xF800) (exec (.rectColor 5 1 9 6 0xF800) board) =
      some [(5, 1), (6, 1), (7, 1), (5, 2), (5, 3)] := by decide
theorem test_hline_color :
    shows (pixelsOf 0xFFFF) (exec (.hlineColor 1 0 3 0xFFFF) board) = some [(1, 0), (2, 0), (3, 0)] := by decide
/-- Section 2.4: no wrap, `y = H`, `length = 0`. -/
theorem test_hline_color_nothing :
    next? (exec (.hlineColor 65535 0 3 0xFFFF) board) = some board ∧
    next? (exec (.hlineColor 0 4 5 0xFFFF) board) = some board ∧
    next? (exec (.hlineColor 0 0 0 0xFFFF) board) = some board := by decide
theorem test_vline_color :
    shows (pixelsOf 0x001F) (exec (.vlineColor 0 2 9 0x001F) board) = some [(0, 2), (0, 3)] := by decide
theorem test_vline_color_nothing : next? (exec (.vlineColor 8 0 4 0x001F) board) = some board := by decide
theorem test_draw_hline :
    shows (pixelsOf 0xFFFF) (exec (.drawHline 0 1 3 true) board) = some [(0, 1), (1, 1), (2, 1)] := by decide
theorem test_draw_vline :
    shows (pixelsOf 0xF800) (exec (.drawVline 5 0 2 false) { board with bg := 0xF800 }) =
      some [(5, 0), (5, 1)] := by decide
theorem test_draw_rect :
    shows (pixelsOf 0xFFFF) (exec (.drawRect 1 0 4 3 true) board) =
      some [(1, 0), (2, 0), (3, 0), (4, 0), (1, 1), (4, 1), (1, 2), (4, 2), (1, 3), (2, 3), (3, 3), (4, 3)] := by decide
/-- Section 2.5, as set in the buffer. -/
theorem test_line_color :
    shows (pixelsOf 0xF800) (exec (.lineColor 0 0 7 3 0xF800) board) =
      some [(0, 0), (1, 0), (2, 1), (3, 1), (4, 2), (5, 2), (6, 3), (7, 3)] := by decide
/-- Section 2.5: the walk goes on outside the buffer. -/
theorem test_line_color_clipped :
    shows (pixelsOf 0xF800) (exec (.lineColor 6 1 12 4 0xF800) board) = some [(6, 1), (7, 1)] := by decide
theorem test_draw_line :
    shows (pixelsOf 0xFFFF) (exec (.drawLine 0 0 3 1 true) board) = some [(0, 0), (1, 0), (2, 1), (3, 1)] := by decide
/-- Section 2.5: plotting order. -/
theorem test_line_order :
    linePoints 6 1 0 3 = [(6, 1), (5, 1), (4, 2), (3, 2), (2, 2), (1, 3), (0, 3)] ∧
    linePoints 2 1 0 0 = [(2, 1), (1, 1), (0, 0)] ∧
    linePoints 0 0 5 10 =
      [(0, 0), (0, 1), (1, 2), (1, 3), (2, 4), (2, 5), (3, 6), (3, 7), (4, 8), (4, 9), (5, 10)] := by decide
/-- Section 2.5: the error term's corner case. -/
theorem test_line_error_term : (lineWalk 0 0 1 5).map LineAt.err = [-4, -3, -2, -6, -5, -4] := by decide
/-- Section 2.6, 4 by 3 after SET_PIXEL 1, 1, 0xF800. -/
theorem test_update :
    shows (fun t => t.tx.drop 7) (exec .update { small with fb := [(10, 0xF8)] }) =
      some [.sendCommand 0x2A, .sendData [0, 0, 0, 3], .sendCommand 0x2B, .sendData [0, 0, 0, 2], .sendCommand 0x2C,
        .sendData [0, 0, 0, 0, 0, 0, 0, 0, 0, 0, 0xF8, 0, 0, 0, 0, 0, 0, 0, 0, 0, 0, 0, 0, 0]] := by decide
/-- Section 2.7. -/
theorem test_rgb565 :
    shows State.result (exec (.rgb565 0x12 0x34 0x56) small) = some 0x11AA ∧
    shows State.result (exec (.rgb565 247 251 247) small) = some 0xF7DE := by decide
theorem test_rgb565_truncates :
    shows State.result (exec (.rgb565 7 3 7) small) = some 0x0000 ∧
    shows State.result (exec (.rgb565 8 4 8) small) = some 0x0821 := by decide
theorem test_get_fg : shows State.result (exec .getFg small) = some 0xFFFF := by decide
theorem test_get_bg : shows State.result (exec .getBg { small with result := 1 }) = some 0x0000 := by decide
theorem test_get_accent : shows State.result (exec .getAccent small) = some 0x07FF := by decide
theorem test_get_width : shows State.result (exec .getWidth State.reset) = some 0x0080 := by decide
theorem test_get_height : shows State.result (exec .getHeight State.reset) = some 0x00A0 := by decide
theorem test_set_fg : shows (fun t => (t.fg, t.bg, t.acc)) (exec (.setFg 0x1111) small) =
    some (0x1111, 0x0000, 0x07FF) := by decide
theorem test_set_bg : shows (fun t => (t.fg, t.bg, t.acc)) (exec (.setBg 0x1111) small) =
    some (0xFFFF, 0x1111, 0x07FF) := by decide
theorem test_set_accent : shows (fun t => (t.fg, t.bg, t.acc)) (exec (.setAccent 0x1234) small) =
    some (0xFFFF, 0x0000, 0x1234) := by decide
theorem test_set_theme : shows (fun t => (t.fg, t.bg, t.acc)) (exec (.setTheme 0x07E0 0xF800 0x001F) small) =
    some (0x07E0, 0xF800, 0x001F) := by decide
theorem test_nop : next? (exec .nop small) = some small := by decide
theorem test_clear_status : shows State.status (exec .clearStatus { small with status := 0x0001 }) = some 0x0000 := by
  decide

/-! ### Steps, the exception, reset, ports, assembly -/

/-- Section 2.8: an illegal word sets ILL, keeps RESULT, and is sticky. -/
theorem test_illegal_word :
    shows (fun t => (t.status, t.result, t.port)) (step (offered 0x01FF_0000_0020 { small with result := 0x11AA })) =
      some (0x0001, 0x11AA, []) ∧
    shows State.status (step (offered 0x0141 { small with status := 0x0001 })) = some 0x0001 := by decide
/-- The first command after reset runs, whatever its family; the reference configuration. -/
theorem test_first_command :
    shows (fun t => (t.pix 3 4, t.port)) (step (State.reset.withFetchWord 96 0x0000_0000_0004_0003_F800_0001)) =
      some (0xF800, []) := by decide
/-- R41: reset in a 4 by 3 FPW, from a state with everything changed; it wins over the presented command (R244). -/
theorem test_reset :
    next? (step (sampled ⟨true, true, 0x0001, true⟩
      { small with fb := [(3, 0x55)], fg := 1, bg := 2, acc := 3, result := 4, status := 1, tx := [] })) = some small := by
  decide
/-- R263: the reset trace of a 1 by 1 FPW (section 2.6). -/
theorem test_reset_trace :
    (State.resetWith ⟨0, 0⟩).tx =
      [.panelInit, .sendCommand 0x2A, .sendData [0, 0, 0, 0], .sendCommand 0x2B, .sendData [0, 0, 0, 0],
        .sendCommand 0x2C, .sendData [0x00, 0x00]] := by decide
/-- R38: the beats of one payload and one command byte. -/
theorem test_beats :
    beatsOf [.panelInit, .sendCommand 0x2A, .sendData [1, 2]] =
      [.panelInit, .command 0x2A, .data 1 false, .data 2 true] := by decide
/-- R244, R264: an UPDATE that waits for the transport is abandoned to a reset; the command offered meanwhile is not
accepted; the sample after the reset stays. -/
theorem test_update_abandoned_by_reset :
    next? (step { drawnSmall with port := [⟨false, true, 0x40, false⟩, ⟨false, true, 0x0112, false⟩,
      ⟨true, false, 0, true⟩, presenting 0x0022] }) = some { small with port := [presenting 0x0022] } := by decide
/-- R40: an UPDATE that waits completes when the transport accepts, and is stuck if it never does. -/
theorem test_update_waits :
    shows (fun t => (t.tx.length, t.fb, t.port))
      (step { drawnSmall with port := [⟨false, true, 0x40, false⟩, ⟨false, false, 0, false⟩, ⟨false, true, 1, true⟩] }) =
        some (13, [(10, 0xF8)], []) ∧
    next? (step { drawnSmall with port := [⟨false, true, 0x40, false⟩, ⟨false, false, 0, false⟩] }) = none ∧
    next? (exec .update { small with txReady := false }) = none := by decide
/-- R266: a reset that waits ends when the transport accepts; an abandoned UPDATE's reset may wait too. -/
theorem test_reset_waits :
    next? (step { drawnSmall with port := [⟨true, false, 0, false⟩, ⟨false, true, 1, true⟩] }) = some small ∧
    next? (step { drawnSmall with port := [⟨false, true, 0x40, false⟩, ⟨true, false, 0, false⟩] }) = none := by decide
/-- R261: `cmd_ready` is 0 while `rst` is 1. -/
theorem test_ready_output :
    small.outputs.cmdReady = true ∧ (sampled ⟨true, false, 0, true⟩ small).outputs.cmdReady = false := by decide
/-- R82: the rule's four examples. -/
theorem test_assembly_examples :
    assembleLine "SET_PIXEL 3, 4, 0xF800".toList = some [.setPixel 3 4 0xF800] ∧
    assembleLine "DRAW_LINE 0, 0, 10, 5, 1".toList = some [.drawLine 0 0 10 5 true] ∧
    assembleLine "RGB565 255, 0, 0".toList = some [.rgb565 255 0 0] ∧
    assembleLine "UPDATE ; flush".toList = some [.update] := by decide
/-- R83: the pseudo-instructions and a colour expression; R82: an operand that does not fit is refused. -/
theorem test_assembly_pseudo :
    assembleLine "THEME_DEFAULT".toList = some [.setTheme 0xFFFF 0x0000 0x07FF] ∧
    assembleLine "CLEAR".toList = some [.fill false] ∧
    assembleLine "PLOT 1, 2".toList = some [.drawPixel 1 2 true] ∧
    assembleLine "SET_FG rgb(255, 0, 0)".toList = some [.setFg 0xF800] ∧
    assembleLine "FILL 2".toList = none ∧
    assembleLine "READ_PIXEL 65536, 0".toList = none := by decide

/-! ### Witnesses: a concrete state and operands that meet all hypotheses of a statement, clause by clause -/

/-- A word with the given OP and the given other bits of `cmd[15:8]`, every operand field all ones. -/
def wordWith (op : BitVec 8) (bits : Command) : Command :=
  0xFFFF_FFFF_FFFF_FFFF_FFFF_0000 ||| op.setWidth 96 ||| bits

/-- Words that meet each hypothesis of `DecodesPlain op`: RSV not 0 (its lowest and its highest bit), FLAG 1, both 0. -/
abbrev meetsPlain (op : BitVec 8) : Prop :=
  (opOf (wordWith op 0x0200) = op ∧ rsvOf (wordWith op 0x0200) ≠ 0) ∧
  (opOf (wordWith op 0x8000) = op ∧ rsvOf (wordWith op 0x8000) ≠ 0) ∧
  (opOf (wordWith op 0x0100) = op ∧ flagOf (wordWith op 0x0100) = true) ∧
  (opOf (wordWith op 0) = op ∧ rsvOf (wordWith op 0) = 0 ∧ flagOf (wordWith op 0) = false)

/-- Words that meet each hypothesis of `DecodesFlagged op`, the legal ones with either flag. -/
abbrev meetsFlagged (op : BitVec 8) : Prop :=
  (opOf (wordWith op 0x8200) = op ∧ rsvOf (wordWith op 0x8200) ≠ 0) ∧
  (opOf (wordWith op 0) = op ∧ rsvOf (wordWith op 0) = 0 ∧ flagOf (wordWith op 0) = false) ∧
  (opOf (wordWith op 0x0100) = op ∧ rsvOf (wordWith op 0x0100) = 0 ∧ flagOf (wordWith op 0x0100) = true)

/-- An 8 by 4 FPW with something drawn, its list canonical. -/
def drawn : State := { board with fb := [(0, 0x12), (1, 0x34), (62, 0x01), (63, 0x02)] }

/-- In range at the last pixel, out of range at `x = W` and at `y = H`: both sides of the bounds check. -/
theorem witness_SetPixelWritesOnePixel :
    meetsPlain 0x01 ∧ drawn.fb.wf = true ∧ (7 < drawn.cfg.W ∧ 3 < drawn.cfg.H) ∧ ¬ 8 < drawn.cfg.W ∧
    ¬ 4 < drawn.cfg.H := by decide
theorem witness_PlotOutsideIsSilentClip :
    (drawn.cfg.W ≤ 8 ∨ drawn.cfg.H ≤ 0) ∧ (drawn.cfg.W ≤ 0 ∨ drawn.cfg.H ≤ 4) ∧
    (drawn.cfg.W ≤ 65535 ∨ drawn.cfg.H ≤ 65535) := by decide
theorem witness_ReadPixelReturnsPixel :
    meetsPlain 0x21 ∧ (7 < drawn.cfg.W ∧ 3 < drawn.cfg.H) ∧ ¬ (8 < drawn.cfg.W ∧ 3 < drawn.cfg.H) ∧
    ¬ (7 < drawn.cfg.W ∧ 4 < drawn.cfg.H) := by decide
theorem witness_FillThenSetThenRead :
    drawn.fb.wf = true ∧ 7 < drawn.cfg.W ∧ 3 < drawn.cfg.H ∧ 0 < drawn.cfg.W ∧ ((0 : Nat) ≠ 7 ∨ (3 : Nat) ≠ 3) := by
  decide
theorem witness_PixelsTileTheFramebuffer :
    7 < drawn.cfg.W ∧ 3 < drawn.cfg.H ∧ 63 < drawn.cfg.fbBytes ∧
    pixNumber drawn.cfg 7 3 = pixNumber drawn.cfg 7 3 := by decide
theorem witness_DrawPixelUsesFlagColour : meetsFlagged 0x11 ∧ drawn.fb.wf = true := by decide
theorem witness_FillUsesFlagColour : meetsFlagged 0x12 ∧ drawn.fb.wf = true := by decide
theorem witness_DrawRectUsesFlagColour : meetsFlagged 0x14 ∧ drawn.fb.wf = true := by decide
theorem witness_DrawHlineUsesFlagColour : meetsFlagged 0x15 ∧ drawn.fb.wf = true := by decide
theorem witness_DrawVlineUsesFlagColour : meetsFlagged 0x16 ∧ drawn.fb.wf = true := by decide
theorem witness_DrawLineUsesFlagColour : meetsFlagged 0x17 := by decide
theorem witness_ExplicitColourIgnoresTheme :
    isExplicit (.setPixel 0 0 1) = true ∧ isExplicit (.fillColor 1) = true ∧
    isExplicit (.rectFilled 0 0 1 1 1) = true ∧ isExplicit (.rectColor 0 0 1 1 1) = true ∧
    isExplicit (.hlineColor 0 0 1 1) = true ∧ isExplicit (.vlineColor 0 0 1 1) = true ∧
    isExplicit (.lineColor 0 0 1 1 1) = true := by decide
theorem witness_FillColorWritesEveryPixel : meetsPlain 0x02 ∧ drawn.fb.wf = true := by decide
theorem witness_RectFilledWritesClippedRectangle : meetsPlain 0x03 ∧ drawn.fb.wf = true := by decide
theorem witness_RectColorWritesOutline : meetsPlain 0x04 ∧ drawn.fb.wf = true := by decide
theorem witness_HlineColorWritesRow : meetsPlain 0x05 ∧ drawn.fb.wf = true := by decide
theorem witness_VlineColorWritesColumn : meetsPlain 0x06 ∧ drawn.fb.wf = true := by decide
theorem witness_ExplicitDrawingIsIdempotent :
    isExplicit (.setPixel 7 3 0xF800) = true ∧ drawn.fb.wf = true ∧
    next? (exec (.setPixel 7 3 0xF800) drawn) = some { drawn with fb := [(0, 0x12), (1, 0x34), (62, 0xF8)] } := by
  decide
theorem witness_PlottingIsPlotPixelLoop : drawn.fb.wf = true := by decide
theorem witness_LineColorPlotsTheWalk : meetsPlain 0x07 ∧ drawn.fb.wf = true := by decide
/-- Two points next to each other on the walk `(0,0)` to `(2,1)`. -/
theorem witness_LineWalkCountsItsPoints :
    (linePoints 0 0 2 1)[1]? = some (1, 0) ∧ (linePoints 0 0 2 1)[1 + 1]? = some (2, 1) := by decide
theorem witness_LineWalkStaysInRange :
    (⟨1, 3, -6⟩ : LineAt) ∈ lineWalk 0 0 1 5 ∧ (0 : Nat) < 65536 ∧ (1 : Nat) < 65536 ∧ (5 : Nat) < 65536 := by decide
theorem witness_SpecialLinesAreWhole :
    |((3 : Nat) : Int) - (0 : Nat)| = |((0 : Nat) : Int) - (3 : Nat)| := by decide
theorem witness_EndpointOrderMatters :
    State.reset.fb.wf = true ∧ 11 ≤ State.reset.cfg.W ∧ 6 ≤ State.reset.cfg.H ∧ State.reset.pix 1 0 ≠ 0xF800 := by
  decide
theorem witness_UpdateSendsTheWholeFrame : meetsPlain 0x40 ∧ drawn.txReady = true := by decide
theorem witness_OnlyUpdateAppendsToTx :
    (next? (exec .update small)).isSome = true ∧ Instr.fill true ≠ .update ∧
    (next? (exec (.fill true) small)).isSome = true := by decide
/-- A step for each clause: an accepted UPDATE, a reset, an UPDATE abandoned to a reset, a waiting step. -/
theorem witness_TxIsAppendOnly :
    (next? (step (offered 0x40 small))).isSome = true ∧
    (next? (step (sampled ⟨true, false, 0, true⟩ small))).isSome = true ∧
    (next? (step { small with port := [⟨false, true, 0x40, false⟩, ⟨true, false, 0, true⟩] })).isSome = true ∧
    (next? (step small)).isSome = true := by decide
theorem witness_StalledTransportStopsOnlyEmitters :
    { small with txReady := false }.txReady = false ∧
    (∀ q ∈ ([⟨true, false, 0, false⟩] : List PortSample), q.txReady = false) ∧
    small.cmdReady = true ∧ decode 0x40 = .legal .update ∧
    (∀ q ∈ ([⟨false, true, 1, false⟩] : List PortSample), q.rst = false ∧ q.txReady = false) ∧
    Instr.nop ≠ .update := by decide
theorem witness_BeatsCarryTheTrace :
    ∀ bs, TxEvent.sendData bs ∈ [.panelInit, .sendCommand 0x2A, .sendData [1, 2]] → bs ≠ [] := by
  rintro bs h rfl
  revert h
  decide
/-- Legal, and illegal by RSV, by FLAG and by the lowest bit of each of the three high bytes. -/
theorem witness_Rgb565PacksChannels :
    (opOf 0x0220 = 0x20 ∧ rsvOf 0x0220 ≠ 0) ∧ (opOf 0x0120 = 0x20 ∧ flagOf 0x0120 = true) ∧
    (opOf 0x0000_0000_0000_0100_0000_0020 = 0x20 ∧
      (fieldA 0x0000_0000_0000_0100_0000_0020).extractLsb' 8 8 ≠ 0) ∧
    (opOf 0x0000_0000_0100_0000_0000_0020 = 0x20 ∧
      (fieldB 0x0000_0000_0100_0000_0000_0020).extractLsb' 8 8 ≠ 0) ∧
    (opOf 0x0000_0100_0000_0000_0000_0020 = 0x20 ∧
      (fieldC 0x0000_0100_0000_0000_0000_0020).extractLsb' 8 8 ≠ 0) ∧
    (opOf 0xFFFF_00FF_00FF_00FF_FFFF_0020 = 0x20 ∧ rsvOf 0xFFFF_00FF_00FF_00FF_FFFF_0020 = 0 ∧
      flagOf 0xFFFF_00FF_00FF_00FF_FFFF_0020 = false ∧
      (fieldA 0xFFFF_00FF_00FF_00FF_FFFF_0020).extractLsb' 8 8 = 0 ∧
      (fieldB 0xFFFF_00FF_00FF_00FF_FFFF_0020).extractLsb' 8 8 = 0 ∧
      (fieldC 0xFFFF_00FF_00FF_00FF_FFFF_0020).extractLsb' 8 8 = 0) := by decide
theorem witness_ThemeSettersWriteTheirRegisters :
    meetsPlain 0x30 ∧ meetsPlain 0x31 ∧ meetsPlain 0x32 ∧ meetsPlain 0x33 := by decide
theorem witness_ThemeGettersReturnTheirRegisters : meetsPlain 0x34 ∧ meetsPlain 0x35 ∧ meetsPlain 0x36 := by decide
theorem witness_DimensionGettersReturnDimensions : meetsPlain 0x22 ∧ meetsPlain 0x23 := by decide
theorem witness_NopChangesNothing : meetsPlain 0x00 := by decide
theorem witness_ClearStatusClearsStatus : meetsPlain 0x41 := by decide
theorem witness_DecodeOfEncode : (Instr.rectFilled 65535 0 65535 1 0xFFFF).wellFormed = true := by decide
theorem witness_EncodeOfDecode : decode 0xFFFF_FFFF_FFFF_FFFF_FFFF_0040 = .legal .update := by decide
/-- An illegal word for each check. -/
theorem witness_IllegalWordsAreTheSpecs :
    IllegalWord 0x0013 ∧ IllegalWord 0x0201 ∧ IllegalWord 0x0101 ∧
    IllegalWord 0x0000_0000_0000_01FF_0000_0020 := by
  unfold IllegalWord; decide
/-- Two words that differ in the D field alone, which HLINE_COLOR does not read. -/
theorem witness_UnreadFieldsAreIgnored :
    (0xFFFF_0003_0000_0001_FFFF_0005 : Command) &&& readBits (opOf 0xFFFF_0003_0000_0001_FFFF_0005) =
      0x0000_0003_0000_0001_FFFF_0005 &&& readBits (opOf 0xFFFF_0003_0000_0001_FFFF_0005) := by decide
theorem witness_AssemblyGivesTheCommandBack :
    (Instr.drawLine 65535 0 1 2 true).wellFormed = true ∧ fits16 65535 = true ∧ fits16 0 = true := by decide
theorem witness_StepRunsDecodedCommand :
    (offered 0x0112 small).port = presenting 0x0112 :: [] ∧ (presenting 0x0112).rst = false ∧
    (presenting 0x0112).cmdValid = true ∧ (offered 0x0112 small).cmdReady = true ∧
    decode 0x0112 = .legal (.fill true) ∧ Instr.fill true ≠ .update ∧
    decode 0x40 = .legal .update ∧ (presenting 0x40).txReady = true := by decide
/-- No sample; a sample without a command; a command offered while the FPW is not ready. -/
theorem witness_StepWithoutCommandWaits :
    small.port = [] ∧ (⟨false, false, 0, true⟩ : PortSample).cmdValid = false ∧
    (offered 0x0112 { small with cmdReady := false }).cmdReady = false ∧
    (offered 0x0112 { small with cmdReady := false }).port = presenting 0x0112 :: [] := by decide
/-- An illegal word, then a legal one. -/
theorem witness_IllegalCommandSetsIllOnly :
    { small with port := [presenting 0x0013, presenting 0x0041] }.port = presenting 0x0013 :: [presenting 0x0041] ∧
    (presenting 0x0013).rst = false ∧ (presenting 0x0013).cmdValid = true ∧ small.cmdReady = true ∧
    decode 0x0013 = .illegal .undefinedOpcode ∧ (presenting 0x0041).rst = false ∧
    (presenting 0x0041).cmdValid = true ∧ decode 0x0041 = .legal .clearStatus ∧ Instr.clearStatus ≠ .update ∧
    Instr.nop ≠ .clearStatus := by decide
/-- A reset of an FPW that something was drawn on; a sample while reset has not ended. -/
theorem witness_ResetLeavesResetValues :
    (sampled ⟨true, true, 1, true⟩ drawn).port = ⟨true, true, 1, true⟩ :: [] ∧ drawn.fb.wf = true ∧
    drawn.fb.within drawn.cfg.fbBytes = true ∧
    (sampled ⟨false, true, 1, true⟩ { drawn with cmdReady := false }).cmdReady = false := by decide
/-- The ends of the range, and the values next to them outside it. -/
theorem witness_ConstructionTakesOnlyLegalDimensions :
    ((1 ≤ 1 ∧ 1 ≤ 256) ∧ (1 ≤ 256 ∧ 256 ≤ 256)) ∧ ¬ ((1 ≤ 0 ∧ 0 ≤ 256) ∧ (1 ≤ 1 ∧ 1 ≤ 256)) ∧
    ¬ ((1 ≤ 1 ∧ 1 ≤ 256) ∧ (1 ≤ 257 ∧ 257 ≤ 256)) := by decide
theorem witness_OnlyValueCommandsWriteResult :
    writesResult .getFg = true ∧ (next? (exec .getFg small)).isSome = true ∧
    writesResult .update = false ∧ (next? (exec .update small)).isSome = true := by decide
/-- An UPDATE that waits over one busy edge, the command offered there passed over, and then a reset. -/
theorem witness_AbandonsUpdate :
    State.AbandonsUpdate { small with
      port := [⟨false, true, 0x40, false⟩, ⟨false, true, 0x0112, false⟩, ⟨true, false, 0, true⟩] } :=
  ⟨⟨false, true, 0x40, false⟩, [⟨false, true, 0x0112, false⟩], ⟨true, false, 0, true⟩, [], by decide⟩
/-- ILL set by an illegal word, cleared by CLEAR_STATUS, by reset, and by a reset that an UPDATE was abandoned to. -/
theorem witness_StatusChangesOnlyAsStated :
    shows State.ill (step (offered 0x0013 small)) = some true ∧ small.ill = false ∧
    shows State.ill (step (offered 0x0041 { small with status := 1 })) = some false ∧
    shows State.ill (step (sampled ⟨true, false, 0, true⟩ { small with status := 1 })) = some false ∧
    shows State.ill (step { small with
      status := 1, port := [⟨false, true, 0x40, false⟩, ⟨true, false, 0, true⟩] }) = some false ∧
    { small with status := 1 }.ill = true ∧ small.statusReserved = 0 := by decide
theorem witness_DimensionsAreReadOnly : (next? (step (offered 0x0022 small))).isSome = true := by decide
theorem witness_FramebufferAndThemeAreSeparate :
    isExplicit (.setBg 1) = false ∧ isBoolean (.setBg 1) = false ∧ (next? (exec (.setBg 1) small)).isSome = true ∧
    writesTheme (.fill true) = false ∧ (next? (exec (.fill true) small)).isSome = true := by decide
theorem witness_LegalCommandsAlwaysComplete :
    (offered 0x0112 small).port = presenting 0x0112 :: [] ∧ Instr.fill true ≠ .update ∧
    decode 0x40 = .legal .update ∧ (presenting 0x40).txReady = true ∧
    (presenting 0x0112).rst = false ∧ (presenting 0x0112).cmdValid = true ∧ small.cmdReady = true ∧
    decode 0x0112 = .legal (.fill true) ∧ small.ill = false := by decide
theorem witness_ResultAndAccentAreNotRead :
    (next? (exec .getFg small)).isSome = true ∧ writesResult .getFg = true ∧ writesResult .nop = false ∧
    Instr.setTheme 1 2 3 ≠ .getAccent ∧ writesAccent (.setTheme 1 2 3) = true ∧
    (next? (exec (.setTheme 1 2 3) small)).isSome = true ∧ writesAccent (.drawPixel 0 0 true) = false ∧
    (next? (exec (.drawPixel 0 0 true) small)).isSome = true := by decide
/-- A good state with something drawn, and a step from it. -/
theorem witness_StepKeepsInvariant :
    drawn.Inv ∧ (next? (step (offered 0x0112 drawn))).isSome = true := by
  refine ⟨⟨by decide, by decide, by decide, ⟨[], by simp, rfl⟩, by decide⟩, by decide⟩
/-- Two illegal words by different checks; a legal word; a reset; an UPDATE that waits, a busy edge, then a reset. -/
theorem witness_ResetTakesPrecedence :
    decode 0x0013 = .illegal .undefinedOpcode ∧ decode 0x0201 = .illegal .reservedBits ∧
    decode 0x0112 = .legal (.fill true) ∧ (next? (acceptCommand 0x0112 small)).isSome = true ∧ small.ill = false ∧
    (⟨true, true, 1, true⟩ : PortSample).rst = true ∧ small.cmdReady = true ∧ decode 0x40 = .legal .update ∧
    (∀ r ∈ ([⟨false, true, 1, false⟩] : List PortSample), r.rst = false ∧ r.txReady = false) := by decide
/-- A busy edge of a reset, with `rst` still 1; a busy edge of an UPDATE; then an accepting one. -/
theorem witness_WaitingEndsWhereTheTransportAccepts :
    (∀ r ∈ ([⟨true, false, 0, false⟩] : List PortSample), r.txReady = false) ∧
    small.cmdReady = true ∧ decode 0x40 = .legal .update ∧
    (∀ r ∈ ([⟨false, true, 1, false⟩] : List PortSample), r.txReady = false ∧ r.rst = false) ∧
    (presenting 0x0112).txReady = true ∧ (presenting 0x0112).rst = false := by decide

end Sys2Proof.Tests
end

/-! PROOFS. Construction of an FPW of given dimensions (R8, R10). -/

namespace Sys2Proof

/-- Within R8's range the configuration exists and has the dimensions asked for. -/
theorem Config.ofDims_of_legal {w h : Nat} (hw : 1 ≤ w ∧ w ≤ 256) (hh : 1 ≤ h ∧ h ≤ 256) :
    ∃ c, Config.ofDims w h = some c ∧ c.W = w ∧ c.H = h :=
  ⟨⟨⟨w - 1, by omega⟩, ⟨h - 1, by omega⟩⟩, by rw [Config.ofDims, dif_pos hw, dif_pos hh],
    Nat.sub_add_cancel hw.1, Nat.sub_add_cancel hh.1⟩

theorem Config.ofDims_of_not_legal {w h : Nat} (hn : ¬ ((1 ≤ w ∧ w ≤ 256) ∧ (1 ≤ h ∧ h ≤ 256))) :
    Config.ofDims w h = none := by
  unfold Config.ofDims
  split
  next hw => exact dif_neg fun hh => hn ⟨hw, hh⟩
  next => rfl

namespace Machine

theorem construct_of_ofDims_some {w h : Nat} {c : Config} (hc : Config.ofDims w h = some c) :
    construct w h = .next (State.resetWith c) := by
  simp only [construct, hc]

theorem construct_of_ofDims_none {w h : Nat} (hn : Config.ofDims w h = none) :
    construct w h = .refused .badConfiguration := by
  simp only [construct, hn]

/-- Settles O48: construction is a reset in the configuration that `Config.ofDims` answers, and that function answers
one of the given dimensions exactly in the range. -/
theorem constructionTakesOnlyLegalDimensions : Obligations.ConstructionTakesOnlyLegalDimensions := by
  intro w h
  constructor
  · rintro ⟨hw, hh⟩
    obtain ⟨c, hc, rfl, rfl⟩ := Config.ofDims_of_legal hw hh
    exact ⟨State.resetWith c, construct_of_ofDims_some hc, rfl, rfl, rfl⟩
  · intro hn
    exact construct_of_ofDims_none (Config.ofDims_of_not_legal hn)

end Machine
end Sys2Proof

/-! PROOFS. All an accepted command can do, said once, and with it who writes RESULT (R29) and that nothing writes `W`
and `H` (R32). -/

namespace Sys2Proof.Machine

open Sys2Proof.Claims

/-! ### The effect of a command -/

/-- The next states a command has from `s`, by the part of the state that it writes: RESULT, FB, the theme, STATUS, TX or
nothing (R20). A theme command is one that writes all three registers, some with the value they hold. -/
inductive ExecEffect (i : Instr) (s : State) : State → Prop where
  | result (hi : writesResult i = true) (v : BitVec 16) : ExecEffect i s (s.setResult v)
  | plot (hi : isExplicit i = true ∨ isBoolean i = true) (ps : List Point) (k : Color) : ExecEffect i s (s.plotAll ps k)
  | fill (hi : isExplicit i = true ∨ isBoolean i = true) (k : Color) : ExecEffect i s (s.fillAll k)
  | theme (hi : writesTheme i = true) (fg bg acc : Color) : ExecEffect i s (((s.setFg fg).setBg bg).setAcc acc)
  | clear (hi : i = .clearStatus) : ExecEffect i s s.clearStatus
  | flush (hi : i = .update) (htx : s.txReady = true) : ExecEffect i s (s.emit s.flushEvents)
  | nothing (hi : i = .nop) : ExecEffect i s s

/-- If a command answers next, it wrote the part of the state that its kind writes. -/
theorem exec_effect {i : Instr} {s t : State} (h : exec i s = .next t) : ExecEffect i s t := by
  cases i with
  | update =>
    obtain ⟨htx, rfl⟩ := transmitted_next h
    exact .flush rfl htx
  | nop => obtain rfl := Host.Outcome.next.inj h; exact .nothing rfl
  | clearStatus => obtain rfl := Host.Outcome.next.inj h; exact .clear rfl
  | rgb565 | readPixel | getWidth | getHeight | getFg | getBg | getAccent =>
    obtain rfl := Host.Outcome.next.inj h
    exact .result rfl _
  | setFg color => obtain rfl := Host.Outcome.next.inj h; exact .theme rfl color s.bg s.acc
  | setBg color => obtain rfl := Host.Outcome.next.inj h; exact .theme rfl s.fg color s.acc
  | setAccent color => obtain rfl := Host.Outcome.next.inj h; exact .theme rfl s.fg s.bg color
  | setTheme fg bg accent => obtain rfl := Host.Outcome.next.inj h; exact .theme rfl fg bg accent
  | fillColor => obtain rfl := Host.Outcome.next.inj h; exact .fill (.inl rfl) _
  | fill => obtain rfl := Host.Outcome.next.inj h; exact .fill (.inr rfl) _
  | setPixel | rectFilled | rectColor | hlineColor | vlineColor | lineColor =>
    obtain rfl := Host.Outcome.next.inj h
    exact .plot (.inl rfl) _ _
  | drawPixel | drawRect | drawHline | drawVline | drawLine =>
    obtain rfl := Host.Outcome.next.inj h
    exact .plot (.inr rfl) _ _

/-! ### RESULT -/

/-- A value-returning command completes, and writes RESULT and nothing else. -/
theorem exec_of_writesResult {i : Instr} (hi : writesResult i = true) (s : State) :
    ∃ v, exec i s = .next (s.setResult v) := by
  cases i with
  | rgb565 | readPixel | getWidth | getHeight | getFg | getBg | getAccent => exact ⟨_, rfl⟩
  | _ => cases hi

theorem exec_result {i : Instr} {s t : State} (hi : writesResult i = false) (h : exec i s = .next t) :
    t.result = s.result := by
  cases exec_effect h with
  | result hw => rw [hi] at hw; cases hw
  | _ => rfl

/-- Settles O49: the seven value-returning commands are one register write each, and no other effect reaches RESULT. -/
theorem onlyValueCommandsWriteResult : Obligations.OnlyValueCommandsWriteResult := by
  refine ⟨fun i s t hi h => ?_, fun i s t => exec_result, raiseIllegal_result, resetWith_result⟩
  obtain ⟨v, he⟩ := exec_of_writesResult hi s
  obtain rfl := Host.Outcome.next.inj (he.symm.trans h)
  rfl

/-! ### `W` and `H` -/

theorem exec_cfg {i : Instr} {s t : State} (h : exec i s = .next t) : t.cfg = s.cfg := by
  cases exec_effect h <;> rfl

theorem step_cfg {s t : State} (h : step s = .next t) : t.cfg = s.cfg := by
  rcases step_cases h with ⟨-, rfl⟩ | ⟨p, rest, -, hedge⟩
  · rfl
  · rcases hedge with ⟨-, q, later, -, rfl⟩ | ⟨-, -, rfl⟩ | ⟨-, -, -, -, rfl⟩ | ⟨-, -, -, i, -, q, later, he⟩
    · rfl
    · rfl
    · rfl
    · rw [exec_cfg he, takeSample_cfg]

/-- Settles O51: every way a step can end keeps the configuration, and the two getters read it. -/
theorem dimensionsAreReadOnly : Obligations.DimensionsAreReadOnly :=
  ⟨fun _ _ h => by rw [step_cfg h]; exact ⟨rfl, rfl⟩, fun _ => ⟨rfl, rfl⟩⟩

end Sys2Proof.Machine

/-! PROOFS. Which words are illegal (R77, R78), and that a field its format does not read changes nothing (R79). -/

namespace Sys2Proof

open Sys2Proof.Claims

/-! ### The tables of R72, R73 and R77, by OP value -/

theorem ofCode_eq_none_iff (op : BitVec 8) : Opcode.ofCode op = none ↔ op ∉ opcodeMap := by
  have hmap : opcodeMap = Opcode.all.map Opcode.code := rfl
  simp [hmap, Opcode.ofCode]

theorem readsFlag_eq_false_iff (o : Opcode) : o.format.readsFlag = false ↔ o.code ∉ flaggedOps := by
  cases o <;> decide

theorem format_eq_rgb_iff (o : Opcode) : o.format = .rgb ↔ o = .rgb565 := by
  cases o <;> decide

theorem code_eq_rgb565_iff (o : Opcode) : o.code = 0x20 ↔ o = .rgb565 := by
  cases o <;> decide

/-- A format's checks fail exactly when one of R77's three items does. -/
theorem exists_checkFields_eq_some_iff (fmt : Format) (f : Fields) :
    (∃ why, checkFields fmt f = some why) ↔
      f.rsv ≠ 0 ∨ (f.flag = true ∧ fmt.readsFlag = false) ∨
        (fmt = .rgb ∧ (highByte f.a ≠ 0 ∨ highByte f.b ≠ 0 ∨ highByte f.c ≠ 0)) := by
  unfold checkFields
  split_ifs with hrsv hflag hrgb
  · exact iff_of_true ⟨_, rfl⟩ (.inl hrsv)
  · exact iff_of_true ⟨_, rfl⟩ (.inr (.inl hflag))
  · exact iff_of_true ⟨_, rfl⟩ (.inr (.inr hrgb))
  · exact iff_of_false (by simp) (not_or.2 ⟨hrsv, not_or.2 ⟨hflag, hrgb⟩⟩)

/-! ### Illegal words -/

theorem decode_of_ofCode_none {w : Command} (ho : Opcode.ofCode (opOf w) = none) :
    decode w = .illegal .undefinedOpcode := by
  have ho' : Opcode.ofCode (unpack w).op = none := ho
  simp only [decode, ho']

/-- A word whose OP is in the map is what its row's checks say, or the row's command (R81). -/
theorem decode_of_ofCode_some {w : Command} {o : Opcode} (ho : Opcode.ofCode (opOf w) = some o) :
    decode w = (checkFields o.format (unpack w)).elim (.legal (assemble o (unpack w))) .illegal := by
  have ho' : Opcode.ofCode (unpack w).op = some o := ho
  cases hc : checkFields o.format (unpack w) <;> simp only [decode, ho', hc, Option.elim]

theorem decode_illegal_iff_of_ofCode_some {w : Command} {o : Opcode} (ho : Opcode.ofCode (opOf w) = some o) :
    (∃ why, decode w = .illegal why) ↔ ∃ why, checkFields o.format (unpack w) = some why := by
  rw [decode_of_ofCode_some ho]
  cases checkFields o.format (unpack w) <;> simp

/-- The decoder rejects exactly the words that R77 and R78 call illegal. -/
theorem illegalWord_iff (w : Command) : IllegalWord w ↔ ∃ why, decode w = .illegal why := by
  cases ho : Opcode.ofCode (opOf w) with
  | none =>
    have hop := (ofCode_eq_none_iff _).1 ho
    exact ⟨fun _ => ⟨_, decode_of_ofCode_none ho⟩, fun _ => .inl hop⟩
  | some o =>
    have hmem : ¬ opOf w ∉ opcodeMap := fun hn => by cases ho.symm.trans ((ofCode_eq_none_iff _).2 hn)
    rw [decode_illegal_iff_of_ofCode_some ho, exists_checkFields_eq_some_iff, readsFlag_eq_false_iff,
      format_eq_rgb_iff, ← code_eq_rgb565_iff, code_of_ofCode ho]
    exact or_iff_right hmem

namespace Machine

theorem acceptCommand_of_illegal {w : Command} {why : Illegal} (h : decode w = .illegal why) (s : State) :
    acceptCommand w s = .next s.raiseIllegal := by
  simp only [acceptCommand, h]

/-- Settles O40: the checks of the decoder are those of the specification, and every rejected word raises ILL. -/
theorem illegalWordsAreTheSpecs : Obligations.IllegalWordsAreTheSpecs := by
  intro w s
  refine ⟨illegalWord_iff w, fun hw => ?_⟩
  obtain ⟨why, h⟩ := (illegalWord_iff w).1 hw
  exact acceptCommand_of_illegal h s

end Machine

/-! ### Words that agree on a mask -/

section Agree

variable {w v m : Command}

/-- Words that agree on a mask have every field in common that the mask covers. -/
theorem extractLsb'_eq_of_and_eq {start len : Nat} (h : w &&& m = v &&& m)
    (hm : m.extractLsb' start len = BitVec.allOnes len) : w.extractLsb' start len = v.extractLsb' start len := by
  have := congrArg (BitVec.extractLsb' start len) h
  simpa only [BitVec.extractLsb'_and, hm, BitVec.and_allOnes] using this

theorem getLsbD_eq_of_and_eq {i : Nat} (h : w &&& m = v &&& m) (hm : m.getLsbD i = true) :
    w.getLsbD i = v.getLsbD i := by
  have := congrArg (BitVec.getLsbD · i) h
  simpa only [BitVec.getLsbD_and, hm, Bool.and_true] using this

end Agree

/-- OP, FLAG and RSV are read or checked in every word (R72, R77). -/
theorem readBits_header (op : BitVec 8) :
    (readBits op).extractLsb' 0 8 = BitVec.allOnes 8 ∧ (readBits op).getLsbD 8 = true ∧
      (readBits op).extractLsb' 9 7 = BitVec.allOnes 7 := by
  unfold readBits
  split_ifs <;> decide

/-! ### The decoder on words that agree on what is read -/

theorem checkFields_congr {fmt : Format} {f g : Fields} (hflag : f.flag = g.flag) (hrsv : f.rsv = g.rsv)
    (hrgb : fmt = .rgb → f.a = g.a ∧ f.b = g.b ∧ f.c = g.c) : checkFields fmt f = checkFields fmt g := by
  by_cases hfmt : fmt = .rgb
  · obtain ⟨ha, hb, hc⟩ := hrgb hfmt
    simp only [checkFields, hflag, hrsv, ha, hb, hc]
  · simp only [checkFields, hflag, hrsv, hfmt, false_and]

section AgreeOnRow

variable {w v : Command} {o : Opcode} (h : w &&& readBits o.code = v &&& readBits o.code)
include h

theorem flag_eq_of_agree : (unpack w).flag = (unpack v).flag :=
  getLsbD_eq_of_and_eq h (readBits_header _).2.1

theorem checkFields_eq_of_agree : checkFields o.format (unpack w) = checkFields o.format (unpack v) := by
  have hrsv : (unpack w).rsv = (unpack v).rsv := extractLsb'_eq_of_and_eq h (readBits_header _).2.2
  refine checkFields_congr (flag_eq_of_agree h) hrsv fun hfmt => ?_
  obtain rfl := (format_eq_rgb_iff o).1 hfmt
  exact ⟨extractLsb'_eq_of_and_eq h (by decide), extractLsb'_eq_of_and_eq h (by decide),
    extractLsb'_eq_of_and_eq h (by decide)⟩

/-- Every operand of a row lies in a field that the pattern table marks as read (R72). -/
theorem assemble_eq_of_agree : assemble o (unpack w) = assemble o (unpack v) := by
  have hflag := flag_eq_of_agree h
  have hcolor (hm : (readBits o.code).extractLsb' 16 16 = BitVec.allOnes 16) :
      (unpack w).color = (unpack v).color := extractLsb'_eq_of_and_eq h hm
  have ha (hm : (readBits o.code).extractLsb' 32 16 = BitVec.allOnes 16) :
      (unpack w).a = (unpack v).a := extractLsb'_eq_of_and_eq h hm
  have hb (hm : (readBits o.code).extractLsb' 48 16 = BitVec.allOnes 16) :
      (unpack w).b = (unpack v).b := extractLsb'_eq_of_and_eq h hm
  have hc (hm : (readBits o.code).extractLsb' 64 16 = BitVec.allOnes 16) :
      (unpack w).c = (unpack v).c := extractLsb'_eq_of_and_eq h hm
  have hd (hm : (readBits o.code).extractLsb' 80 16 = BitVec.allOnes 16) :
      (unpack w).d = (unpack v).d := extractLsb'_eq_of_and_eq h hm
  cases o with
  | nop | getWidth | getHeight | getFg | getBg | getAccent | update | clearStatus => rfl
  | fillColor | setFg | setBg | setAccent => simp only [assemble, hcolor rfl]
  | fill => simp only [assemble, hflag]
  | setPixel => simp only [assemble, ha rfl, hb rfl, hcolor rfl]
  | readPixel => simp only [assemble, ha rfl, hb rfl]
  | drawPixel => simp only [assemble, ha rfl, hb rfl, hflag]
  | hlineColor | vlineColor => simp only [assemble, ha rfl, hb rfl, hc rfl, hcolor rfl]
  | drawHline | drawVline => simp only [assemble, ha rfl, hb rfl, hc rfl, hflag]
  | rgb565 | setTheme => simp only [assemble, ha rfl, hb rfl, hc rfl]
  | rectFilled | rectColor | lineColor => simp only [assemble, ha rfl, hb rfl, hc rfl, hd rfl, hcolor rfl]
  | drawRect | drawLine => simp only [assemble, ha rfl, hb rfl, hc rfl, hd rfl, hflag]

end AgreeOnRow

/-- Settles O41: the words have OP in common, and with it the row, whose checks and operands use only read bits. -/
theorem unreadFieldsAreIgnored : Obligations.UnreadFieldsAreIgnored := by
  intro w v h
  have hop : opOf w = opOf v := extractLsb'_eq_of_and_eq h (readBits_header _).1
  cases ho : Opcode.ofCode (opOf w) with
  | none =>
    have ho' : Opcode.ofCode (opOf v) = none := hop ▸ ho
    rw [decode_of_ofCode_none ho, decode_of_ofCode_none ho']
  | some o =>
    have ho' : Opcode.ofCode (opOf v) = some o := hop ▸ ho
    rw [show opOf w = o.code from (code_of_ofCode ho).symm] at h
    rw [decode_of_ofCode_some ho, decode_of_ofCode_some ho', checkFields_eq_of_agree h, assemble_eq_of_agree h]

end Sys2Proof

/-! PROOFS. The decoding of a row whose format has no FLAG (R72, R77), what plotting a list of points writes, and with
both the pixel writer (40_pixel.md). -/

namespace Sys2Proof

open Sys2Proof.Claims

/-- A row that requires FLAG = 0 and has no channel check decodes to its own command exactly when RSV and FLAG are 0. -/
theorem decodesPlain_of_format {o : Opcode} (hflag : o.format.readsFlag = false) (hrgb : o.format ≠ .rgb) :
    DecodesPlain o.code fun w => assemble o (unpack w) := by
  intro w hop
  have ho : Opcode.ofCode (opOf w) = some o := hop ▸ ofCode_code o
  constructor
  · intro h
    refine (decode_illegal_iff_of_ofCode_some ho).2 ((exists_checkFields_eq_some_iff _ _).2 ?_)
    exact h.imp_right fun hf => .inl ⟨hf, hflag⟩
  · rintro ⟨hrsv, hf⟩
    have hrsv' : (unpack w).rsv = 0 := hrsv
    have hf' : (unpack w).flag = false := hf
    have hc : checkFields o.format (unpack w) = none := by simp [checkFields, hrsv', hf', hrgb]
    rw [decode_of_ofCode_some ho, hc, Option.elim]

namespace Machine

/-- Plotting a list of points paints exactly the pixels of the buffer that are among the points (R101, R102). -/
theorem paintsExactly_plotAll {s : State} (h : s.fb.wf = true) {ps : List Point} {P : Nat → Nat → Prop} (k : Color)
    (hP : ∀ x y, x < s.cfg.W → y < s.cfg.H → (P x y ↔ (x, y) ∈ ps)) : PaintsExactly s (s.plotAll ps k) P k := by
  refine ⟨rfl, fun x y hx hy hp => ?_, fun a ha => ?_⟩
  · have hmem : pixNumber s.cfg x y ∈ plotted s.cfg ps := (pixNumber_mem_plotted hx hy).2 ((hP x y hx hy).1 hp)
    have heven : pixNumber s.cfg x y * 2 / 2 = pixNumber s.cfg x y := by omega
    have hodd : (pixNumber s.cfg x y * 2 + 1) / 2 = pixNumber s.cfg x y := by omega
    constructor
    · exact (byte_plotAll h ps k _).trans ((if_pos (heven.symm ▸ hmem)).trans (byteOf_even k _))
    · exact (byte_plotAll h ps k _).trans ((if_pos (hodd.symm ▸ hmem)).trans (byteOf_odd k _))
  · rw [byte_plotAll h, if_neg]
    intro hmem
    obtain ⟨x, y, hm, hx, hy, he⟩ := mem_plotted.1 hmem
    obtain ⟨hne0, hne1⟩ := ha x y hx hy ((hP x y hx hy).2 hm)
    unfold pixNumber at he
    omega

/-- Settles O1: SET_PIXEL plots the one point it is given, and its row is plain. -/
theorem setPixelWritesOnePixel : Obligations.SetPixelWritesOnePixel :=
  ⟨decodesPlain_of_format (o := .setPixel) rfl (by decide),
    fun s x y k h => ⟨s.plotPixel x y k, rfl, paintsExactly_plotAll h k fun px py _ _ => by simp⟩⟩

theorem plotted_singleton_outside {c : Config} {x y : Nat} (h : c.W ≤ x ∨ c.H ≤ y) : plotted c [(x, y)] = [] := by
  have hout : ¬ inRange c x y = true := fun hr => by
    obtain ⟨hx, hy⟩ := inRange_iff.1 hr
    omega
  rw [plotted_cons, if_neg hout, plotted_nil]

/-- Settles O2: the point is clipped, and painting no pixel is no change of FB. -/
theorem plotOutsideIsSilentClip : Obligations.PlotOutsideIsSilentClip := by
  intro s x y k h
  rw [State.plotPixel, State.plotAll, plotted_singleton_outside h, paint_nil]

theorem pixelOrZero_eq (s : State) (x y : Nat) :
    pixelOrZero s x y = if inRange s.cfg x y then s.pix x y else 0x0000 :=
  (if_congr inRange_iff rfl rfl).symm

/-- Settles O3: the row is plain, and the value READ_PIXEL writes is the pixel behind the model's bounds check. -/
theorem readPixelReturnsPixel : Obligations.ReadPixelReturnsPixel := by
  refine ⟨decodesPlain_of_format (o := .readPixel) rfl (by decide), fun s x y => ?_⟩
  rw [pixelOrZero_eq]
  rfl

end Machine
end Sys2Proof

/-! PROOFS. The decoding of a row whose format reads FLAG (R72, R75, R77), what the commands of 42_fill_rect.md that the
boolean primitives delegate to paint, what an explicit-colour command reads and writes (R127), and with these the
boolean primitives (41_boolean.md). -/

namespace Sys2Proof

open Sys2Proof.Claims

/-- A row that reads FLAG decodes to its own command exactly when RSV is 0: no such row has a channel check. -/
theorem decodesFlagged_of_format {o : Opcode} (hflag : o.format.readsFlag = true) :
    DecodesFlagged o.code fun w => assemble o (unpack w) := by
  intro w hop
  have ho : Opcode.ofCode (opOf w) = some o := hop ▸ ofCode_code o
  constructor
  · intro h
    exact (decode_illegal_iff_of_ofCode_some ho).2 ((exists_checkFields_eq_some_iff _ _).2 (.inl h))
  · intro hrsv
    have hrsv' : (unpack w).rsv = 0 := hrsv
    have hrgb : o.format ≠ .rgb := fun hr => by rw [hr] at hflag; cases hflag
    have hc : checkFields o.format (unpack w) = none := by simp [checkFields, hrsv', hflag, hrgb]
    rw [decode_of_ofCode_some ho, hc, Option.elim]

namespace Machine

/-! ### The points of the shapes, as the statements name them -/

theorem exists_offset_lt_iff {a b n : Nat} : (∃ i < n, b = a + i) ↔ a ≤ b ∧ b < a + n := by
  constructor
  · rintro ⟨i, hi, rfl⟩
    omega
  · rintro ⟨hle, hlt⟩
    exact ⟨b - a, by omega, by omega⟩

theorem onOutline_iff_mem_outlinePoints {x1 y1 x2 y2 px py : Nat} :
    OnOutline x1 y1 x2 y2 px py ↔ (px, py) ∈ outlinePoints x1 y1 x2 y2 := by
  simp only [OnOutline, mem_outlinePoints, mem_hlinePoints, mem_vlinePoints, absDiff]
  omega

/-! ### What the fill, the outline and the axis lines paint -/

/-- A fill paints every pixel of the buffer: below FB_BYTES every byte is a pixel's (R23, R140). -/
theorem paintsExactly_fillAll {s : State} (h : s.fb.wf = true) (k : Color) :
    PaintsExactly s (s.fillAll k) (fun _ _ => True) k := by
  refine ⟨rfl, fun x y hx hy _ => ?_, fun a ha => ?_⟩
  · have hlt : pixNumber s.cfg x y < s.cfg.W * s.cfg.H := pixNumber_lt hx hy
    have hodd : pixNumber s.cfg x y * 2 + 1 < s.cfg.fbBytes := by unfold Config.fbBytes; omega
    constructor
    · exact (byte_fillAll h k _).trans ((if_pos (Nat.lt_of_succ_lt hodd)).trans (byteOf_even k _))
    · exact (byte_fillAll h k _).trans ((if_pos hodd).trans (byteOf_odd k _))
  · rw [byte_fillAll h, if_neg]
    intro hlt
    have hi : a / 2 < s.cfg.W * s.cfg.H := by unfold Config.fbBytes at hlt; omega
    obtain ⟨hx, hy, he⟩ := exists_pixNumber hi
    obtain ⟨hne0, hne1⟩ := ha _ _ hx hy trivial
    unfold pixNumber at he
    omega

section Painted

variable {s : State} (h : s.fb.wf = true)
include h

theorem exec_fillColor_paints (k : Color) :
    ∃ t, exec (.fillColor k) s = .next t ∧ PaintsExactly s t (fun _ _ => True) k :=
  ⟨_, rfl, paintsExactly_fillAll h k⟩

theorem exec_rectColor_paints (x1 y1 x2 y2 : Nat) (k : Color) :
    ∃ t, exec (.rectColor x1 y1 x2 y2 k) s = .next t ∧ PaintsExactly s t (OnOutline x1 y1 x2 y2) k :=
  ⟨_, rfl, paintsExactly_plotAll h k fun _ _ _ _ => onOutline_iff_mem_outlinePoints⟩

theorem exec_hlineColor_paints (x y n : Nat) (k : Color) :
    ∃ t, exec (.hlineColor x y n k) s = .next t ∧ PaintsExactly s t (fun px py => py = y ∧ ∃ i < n, px = x + i) k :=
  ⟨_, rfl, paintsExactly_plotAll h k fun _ _ _ _ => by rw [exists_offset_lt_iff, mem_hlinePoints]⟩

theorem exec_vlineColor_paints (x y n : Nat) (k : Color) :
    ∃ t, exec (.vlineColor x y n k) s = .next t ∧ PaintsExactly s t (fun px py => px = x ∧ ∃ i < n, py = y + i) k :=
  ⟨_, rfl, paintsExactly_plotAll h k fun _ _ _ _ => by rw [exists_offset_lt_iff, mem_vlinePoints]⟩

end Painted

/-! ### The explicit-colour commands read the configuration and FB, and write FB -/

/-- FB after an explicit-colour command, from the configuration and FB before it: the pixels of its rule, painted. -/
def explicitPaint : Instr → Config → Memory → Memory
  | .setPixel x y k, c, m => m.paint k (plotted c [(x, y)])
  | .fillColor k, c, m => m.paint k (List.range' 0 (c.W * c.H))
  | .rectFilled x y w h k, c, m => m.paint k (plotted c (rectPoints c x y w h))
  | .rectColor x1 y1 x2 y2 k, c, m => m.paint k (plotted c (outlinePoints x1 y1 x2 y2))
  | .hlineColor x y n k, c, m => m.paint k (plotted c (hlinePoints x y n))
  | .vlineColor x y n k, c, m => m.paint k (plotted c (vlinePoints x y n))
  | .lineColor x1 y1 x2 y2 k, c, m => m.paint k (plotted c (linePoints x1 y1 x2 y2))
  | _, _, m => m

/-- An explicit-colour command completes, reads no field but the configuration and FB, and writes FB alone (R127). -/
theorem exec_of_isExplicit {i : Instr} (hi : isExplicit i = true) (s : State) :
    exec i s = .next { s with fb := explicitPaint i s.cfg s.fb } := by
  cases i with
  | setPixel | fillColor | rectFilled | rectColor | hlineColor | vlineColor | lineColor => rfl
  | _ => cases hi

/-- Settles O13: what the command paints depends on the configuration and FB, which the other theme leaves alone. -/
theorem explicitColourIgnoresTheme : Obligations.ExplicitColourIgnoresTheme := fun _ s _ _ _ hi =>
  ⟨_, exec_of_isExplicit hi s, exec_of_isExplicit hi _⟩

/-! ### The boolean commands are their explicit-colour commands in the flag's colour (R120) -/

section Delegation

variable (x y n x1 y1 x2 y2 : Nat) (on : Bool) (s : State)

theorem exec_drawPixel : exec (.drawPixel x y on) s = exec (.setPixel x y (s.flagColor on)) s := rfl

theorem exec_fill : exec (.fill on) s = exec (.fillColor (s.flagColor on)) s := rfl

theorem exec_drawRect :
    exec (.drawRect x1 y1 x2 y2 on) s = exec (.rectColor x1 y1 x2 y2 (s.flagColor on)) s := rfl

theorem exec_drawHline : exec (.drawHline x y n on) s = exec (.hlineColor x y n (s.flagColor on)) s := rfl

theorem exec_drawVline : exec (.drawVline x y n on) s = exec (.vlineColor x y n (s.flagColor on)) s := rfl

theorem exec_drawLine :
    exec (.drawLine x1 y1 x2 y2 on) s = exec (.lineColor x1 y1 x2 y2 (s.flagColor on)) s := rfl

end Delegation

/-- A command that is an explicit-colour command under every ACC has that command's next state, under any other ACC
too. -/
theorem exec_delegate {i j : Instr} {s : State} (hj : isExplicit j = true)
    (h : ∀ acc : Color, exec i { s with acc := acc } = exec j { s with acc := acc }) (acc : Color) :
    ∃ t, exec i s = .next t ∧ exec j s = .next t ∧ exec i { s with acc := acc } = .next { t with acc := acc } :=
  ⟨_, (h s.acc).trans (exec_of_isExplicit hj s), exec_of_isExplicit hj s, (h acc).trans (exec_of_isExplicit hj _)⟩

/-- Settles O12: each boolean command is its explicit-colour command, and the flag's colour is FG or BG, never ACC. -/
theorem booleanCommandsDelegate : Obligations.BooleanCommandsDelegate := fun _ acc _ _ _ _ _ _ =>
  ⟨exec_delegate rfl (fun _ => exec_drawPixel ..) acc, exec_delegate rfl (fun _ => exec_fill ..) acc,
    exec_delegate rfl (fun _ => exec_drawRect ..) acc, exec_delegate rfl (fun _ => exec_drawHline ..) acc,
    exec_delegate rfl (fun _ => exec_drawVline ..) acc, exec_delegate rfl (fun _ => exec_drawLine ..) acc⟩

/-- Settles O6: the row reads FLAG, and the command is SET_PIXEL in the flag's colour. -/
theorem drawPixelUsesFlagColour : Obligations.DrawPixelUsesFlagColour :=
  ⟨decodesFlagged_of_format (o := .drawPixel) rfl, fun s x y on h => by
    rw [exec_drawPixel]
    exact setPixelWritesOnePixel.2 s x y _ h⟩

/-- Settles O7: the row reads FLAG, and the command is FILL_COLOR in the flag's colour. -/
theorem fillUsesFlagColour : Obligations.FillUsesFlagColour :=
  ⟨decodesFlagged_of_format (o := .fill) rfl, fun s on h => by
    rw [exec_fill]
    exact exec_fillColor_paints h _⟩

/-- Settles O8: the row reads FLAG, and the command is RECT_COLOR in the flag's colour. -/
theorem drawRectUsesFlagColour : Obligations.DrawRectUsesFlagColour :=
  ⟨decodesFlagged_of_format (o := .drawRect) rfl, fun s x1 y1 x2 y2 on h => by
    rw [exec_drawRect]
    exact exec_rectColor_paints h x1 y1 x2 y2 _⟩

/-- Settles O9: the row reads FLAG, and the command is HLINE_COLOR in the flag's colour. -/
theorem drawHlineUsesFlagColour : Obligations.DrawHlineUsesFlagColour :=
  ⟨decodesFlagged_of_format (o := .drawHline) rfl, fun s x y n on h => by
    rw [exec_drawHline]
    exact exec_hlineColor_paints h x y n _⟩

/-- Settles O10: the row reads FLAG, and the command is VLINE_COLOR in the flag's colour. -/
theorem drawVlineUsesFlagColour : Obligations.DrawVlineUsesFlagColour :=
  ⟨decodesFlagged_of_format (o := .drawVline) rfl, fun s x y n on h => by
    rw [exec_drawVline]
    exact exec_vlineColor_paints h x y n _⟩

/-- Settles O11: the row reads FLAG, and the command is LINE_COLOR in the flag's colour, which writes FB alone. -/
theorem drawLineUsesFlagColour : Obligations.DrawLineUsesFlagColour :=
  ⟨decodesFlagged_of_format (o := .drawLine) rfl, fun s x1 y1 x2 y2 on => by
    rw [exec_drawLine]
    exact ⟨_, exec_of_isExplicit rfl s, rfl, exec_of_isExplicit rfl s⟩⟩

end Machine
end Sys2Proof

/-! PROOFS. The fill, rectangle and axis-line commands (42_fill_rect.md): their rows are plain, and what they paint,
which for the filled rectangle is said here and for the others stands before the boolean primitives. -/

namespace Sys2Proof.Machine

open Sys2Proof.Claims

/-- The cut at the right and bottom edges (R141) takes no pixel of the buffer away. -/
theorem mem_rectPoints_of_inRange {c : Config} {x y w h px py : Nat} (hx : px < c.W) (hy : py < c.H) :
    (px, py) ∈ rectPoints c x y w h ↔ x ≤ px ∧ px < x + w ∧ y ≤ py ∧ py < y + h := by
  simp only [mem_rectPoints, hx, hy, and_true, and_assoc]

theorem exec_rectFilled_paints {s : State} (hwf : s.fb.wf = true) (x y w h : Nat) (k : Color) :
    ∃ t, exec (.rectFilled x y w h k) s = .next t ∧
      PaintsExactly s t (fun px py => x ≤ px ∧ px < x + w ∧ y ≤ py ∧ py < y + h) k :=
  ⟨_, rfl, paintsExactly_plotAll hwf k fun _ _ hx hy => (mem_rectPoints_of_inRange hx hy).symm⟩

/-- Settles O14: the row is plain, and a fill paints every pixel of the buffer. -/
theorem fillColorWritesEveryPixel : Obligations.FillColorWritesEveryPixel :=
  ⟨decodesPlain_of_format (o := .fillColor) rfl (by decide), fun _ k hwf => exec_fillColor_paints hwf k⟩

/-- Settles O15: the row is plain, and what the points leave out of the exact rectangle is outside the buffer. -/
theorem rectFilledWritesClippedRectangle : Obligations.RectFilledWritesClippedRectangle :=
  ⟨decodesPlain_of_format (o := .rectFilled) rfl (by decide),
    fun _ x y w h k hwf => exec_rectFilled_paints hwf x y w h k⟩

/-- Settles O16: the row is plain, and the four sides drawn are the outline of the corners in either order. -/
theorem rectColorWritesOutline : Obligations.RectColorWritesOutline :=
  ⟨decodesPlain_of_format (o := .rectColor) rfl (by decide),
    fun _ x1 y1 x2 y2 k hwf => exec_rectColor_paints hwf x1 y1 x2 y2 k⟩

/-- Settles O17: the row is plain, and the run is that of the row `y` from `x` on. -/
theorem hlineColorWritesRow : Obligations.HlineColorWritesRow :=
  ⟨decodesPlain_of_format (o := .hlineColor) rfl (by decide),
    fun _ x y n k hwf => exec_hlineColor_paints hwf x y n k⟩

/-- Settles O18: the row is plain, and the run is that of the column `x` from `y` on. -/
theorem vlineColorWritesColumn : Obligations.VlineColorWritesColumn :=
  ⟨decodesPlain_of_format (o := .vlineColor) rfl (by decide),
    fun _ x y n k hwf => exec_vlineColor_paints hwf x y n k⟩

end Sys2Proof.Machine

/-! PROOFS. The flush (44_flush.md): the pixel payload is FB in byte-index order (R193), and UPDATE alone writes TX
(R195). -/

namespace Sys2Proof.Machine

open Sys2Proof.Claims

theorem transmitted_of_txReady {s : State} (htx : s.txReady = true) (t : State) : s.transmitted t = .next t :=
  if_pos htx

theorem exec_update_of_txReady {s : State} (htx : s.txReady = true) :
    exec .update s = .next (s.emit s.flushEvents) :=
  transmitted_of_txReady htx _

/-- The one walk along FB's list reads every byte of FB in index order, whether the list is canonical or not. -/
theorem readBytes_fb (s : State) : s.fb.readBytes 0 s.cfg.fbBytes = (List.range s.cfg.fbBytes).map s.byte := by
  rw [readBytes_eq_map, ← List.range_eq_range']
  rfl

/-- The events of a flush, as R191 to R193 list them. -/
theorem flushEvents_eq (s : State) :
    s.flushEvents =
      [.sendCommand 0x2A, .sendData (windowPayload s.cfg.W),
       .sendCommand 0x2B, .sendData (windowPayload s.cfg.H),
       .sendCommand 0x2C, .sendData ((List.range s.cfg.fbBytes).map s.byte)] := by
  rw [State.flushEvents, readBytes_fb]

theorem flushEvents_ne_nil (s : State) : s.flushEvents ≠ [] := List.cons_ne_nil _ _

/-- Settles O26: the row is plain, and on an accepting transport UPDATE emits the events of a flush. -/
theorem updateSendsTheWholeFrame : Obligations.UpdateSendsTheWholeFrame := by
  refine ⟨decodesPlain_of_format (o := .update) rfl (by decide), fun s htx => ?_⟩
  rw [exec_update_of_txReady htx, flushEvents_eq]
  rfl

/-- If a command other than UPDATE answers next, no effect it can have reaches TX. -/
theorem exec_tx {i : Instr} {s t : State} (hi : i ≠ .update) (h : exec i s = .next t) : t.tx = s.tx := by
  cases exec_effect h with
  | flush hu => exact absurd hu hi
  | _ => rfl

/-- Settles O27: an UPDATE that answers next has emitted the events of a flush, and no other command's effect
reaches TX. -/
theorem onlyUpdateAppendsToTx : Obligations.OnlyUpdateAppendsToTx := by
  refine ⟨fun s t h => ?_, fun i s t => exec_tx⟩
  obtain ⟨-, rfl⟩ := transmitted_next h
  exact ⟨s.flushEvents, flushEvents_ne_nil s, emit_tx s _⟩

end Sys2Proof.Machine

/-! PROOFS. The encoder, the theme registers, the accessors and the control commands (45_color_theme.md): the decoding
of the one row with a channel check, the formula of R210 in words and in exact numbers, and one register write each. -/

namespace Sys2Proof

open Sys2Proof.Claims

/-! ### The row with a channel check (R76, R77) -/

/-- A word whose OP is in the map and that R77 does not call illegal decodes to its row's command (R81). -/
theorem decode_of_not_illegalWord {w : Command} {o : Opcode} (ho : Opcode.ofCode (opOf w) = some o)
    (hw : ¬ IllegalWord w) : decode w = .legal (assemble o (unpack w)) := by
  rw [decode_of_ofCode_some ho]
  cases hc : checkFields o.format (unpack w) with
  | some why => exact absurd ((illegalWord_iff w).2 ((decode_illegal_iff_of_ofCode_some ho).2 ⟨why, hc⟩)) hw
  | none => rfl

/-- Among the words with the OP of RGB565, the illegal ones: every one of R77's checks applies to that row. -/
theorem illegalWord_rgb565_iff {w : Command} (hop : opOf w = 0x20) :
    IllegalWord w ↔ rsvOf w ≠ 0 ∨ flagOf w = true ∨ (fieldA w).extractLsb' 8 8 ≠ 0 ∨
      (fieldB w).extractLsb' 8 8 ≠ 0 ∨ (fieldC w).extractLsb' 8 8 ≠ 0 := by
  have hmap : (0x20 : BitVec 8) ∈ opcodeMap := by decide
  have hflagged : (0x20 : BitVec 8) ∉ flaggedOps := by decide
  simp only [IllegalWord, hop, hmap, hflagged, not_true_eq_false, not_false_eq_true, and_true, true_and, false_or]

namespace Machine

/-! ### The colour encoder (R210) -/

/-- Shifting a channel left as a 16-bit word is shifting the number and keeping its low 16 bits. -/
theorem ofNat_toNat_shiftLeft (v : Byte) (k : Nat) : BitVec.ofNat 16 (v.toNat <<< k) = v.setWidth 16 <<< k := by
  apply BitVec.eq_of_toNat_eq
  rw [BitVec.toNat_ofNat, BitVec.toNat_shiftLeft, BitVec.toNat_setWidth_of_le (by decide)]

/-- The encoder's words lose nothing of R210's formula: the masks and the right shift are those of the numbers, and
each of the three parts is a 16-bit word. -/
theorem rgb565_eq_packedChannels (r g b : Byte) :
    rgb565 r g b = BitVec.ofNat 16 (packedChannels r.toNat g.toNat b.toNat) := by
  have hr : r.toNat &&& 0xF8 = (r &&& 0xF8).toNat := rfl
  have hg : g.toNat &&& 0xFC = (g &&& 0xFC).toNat := rfl
  have hb : b.toNat >>> 3 = (b >>> 3).toNat := (BitVec.toNat_ushiftRight b 3).symm
  rw [packedChannels, hr, hg, hb, BitVec.ofNat_or, BitVec.ofNat_or, ofNat_toNat_shiftLeft, ofNat_toNat_shiftLeft,
    BitVec.ofNat_toNat, rgb565]

/-- Settles O31: the row has all three checks, and RESULT is the encoder's word. -/
theorem rgb565PacksChannels : Obligations.Rgb565PacksChannels := by
  refine ⟨fun w hop => ⟨fun h => ?_, fun h => ?_⟩, fun s r g b => ?_⟩
  · exact (illegalWord_iff w).1 ((illegalWord_rgb565_iff hop).2 h)
  · have hlegal : ¬ IllegalWord w := by
      rw [illegalWord_rgb565_iff hop]
      simp [h]
    exact decode_of_not_illegalWord (o := .rgb565) (hop ▸ ofCode_code .rgb565) hlegal
  · rw [← rgb565_eq_packedChannels]
    rfl

/-! ### The accessors (R223, R224) -/

/-- A number up to 256, as `W` and `H` are, fits a 16-bit register. -/
theorem toNat_ofNat_of_le_256 {n : Nat} (hn : n ≤ 256) : (BitVec.ofNat 16 n).toNat = n :=
  (BitVec.toNat_ofNat n 16).trans (Nat.mod_eq_of_lt (by omega))

/-- Settles O35: the two rows are plain, and a dimension fits RESULT because it is at most 256. -/
theorem dimensionGettersReturnDimensions : Obligations.DimensionGettersReturnDimensions :=
  ⟨decodesPlain_of_format (o := .getWidth) rfl (by decide), decodesPlain_of_format (o := .getHeight) rfl (by decide),
    fun s => ⟨⟨s.setResult (BitVec.ofNat 16 s.cfg.W), rfl, rfl, toNat_ofNat_of_le_256 (config_W_le s.cfg)⟩,
      ⟨s.setResult (BitVec.ofNat 16 s.cfg.H), rfl, rfl, toNat_ofNat_of_le_256 (config_H_le s.cfg)⟩,
      config_W_pos s.cfg, config_W_le s.cfg, config_H_pos s.cfg, config_H_le s.cfg⟩⟩

/-! ### The theme registers (R216 to R222) -/

/-- Settles O33: the four rows are plain, SET_THEME taking its colours from A, B and C, and each command writes its
registers. -/
theorem themeSettersWriteTheirRegisters : Obligations.ThemeSettersWriteTheirRegisters :=
  ⟨decodesPlain_of_format (o := .setFg) rfl (by decide), decodesPlain_of_format (o := .setBg) rfl (by decide),
    decodesPlain_of_format (o := .setAccent) rfl (by decide), decodesPlain_of_format (o := .setTheme) rfl (by decide),
    fun _ _ => rfl, fun _ _ => rfl, fun _ _ => rfl, fun _ _ _ _ => rfl⟩

/-- Settles O34: the three rows are plain, and each command writes RESULT with the register it reads. -/
theorem themeGettersReturnTheirRegisters : Obligations.ThemeGettersReturnTheirRegisters :=
  ⟨decodesPlain_of_format (o := .getFg) rfl (by decide), decodesPlain_of_format (o := .getBg) rfl (by decide),
    decodesPlain_of_format (o := .getAccent) rfl (by decide), fun _ => ⟨rfl, rfl, rfl⟩⟩

/-! ### The control commands (R225, R226) -/

/-- The row of NOP is plain. -/
theorem decodesPlain_nop : DecodesPlain 0x00 fun _ => .nop :=
  decodesPlain_of_format (o := .nop) rfl (by decide)

/-- Settles O36: the row is plain, and every field of the all-zero word is 0. -/
theorem nopChangesNothing : Obligations.NopChangesNothing :=
  ⟨decodesPlain_nop, (decodesPlain_nop 0 rfl).2 ⟨rfl, rfl⟩, fun _ => rfl⟩

/-- The row of CLEAR_STATUS is plain. -/
theorem decodesPlain_clearStatus : DecodesPlain 0x41 fun _ => .clearStatus :=
  decodesPlain_of_format (o := .clearStatus) rfl (by decide)

/-- Settles O37: the row is plain, and a word of it that is illegal raises ILL as every illegal word does (R241). -/
theorem clearStatusClearsStatus : Obligations.ClearStatusClearsStatus := by
  refine ⟨decodesPlain_clearStatus, fun s => rfl, fun s w hop h => ?_⟩
  obtain ⟨why, hdecode⟩ := (decodesPlain_clearStatus w hop).1 h
  exact acceptCommand_of_illegal hdecode s

end Machine
end Sys2Proof

/-! PROOFS. The one exception (60_exceptions.md): what the step at an accepted word is, and that ILLEGAL_COMMAND sets
STATUS[0], which stays set until CLEAR_STATUS or reset (R241). -/

namespace Sys2Proof.Machine

/-! ### The step at an accepted word (R38) -/

section Accepted

variable {s : State} {p : PortSample} {rest : List PortSample} (hport : s.port = p :: rest) (hrst : p.rst = false)
  (hvalid : p.cmdValid = true) (hready : s.cmdReady = true)
include hport hrst hvalid hready

/-- A word presented to a ready FPW outside reset is the one the step accepts. -/
theorem step_of_accepted : step s = acceptCommand p.cmdWord (s.takeSample p rest) := by
  simp [step, clockEdge, hport, hrst, hvalid, hready]

theorem step_of_accepted_legal {i : Instr} (h : decode p.cmdWord = .legal i) :
    step s = runCommand i (s.takeSample p rest) := by
  rw [step_of_accepted hport hrst hvalid hready]
  simp only [acceptCommand, h]

theorem step_of_accepted_illegal {why : Illegal} (h : decode p.cmdWord = .illegal why) :
    step s = .next (s.takeSample p rest).raiseIllegal := by
  rw [step_of_accepted hport hrst hvalid hready]
  exact acceptCommand_of_illegal h _

end Accepted

/-! ### STATUS -/

theorem raiseIllegal_ill (s : State) : s.raiseIllegal.ill = true := by
  simp [State.ill]

theorem raiseIllegal_statusReserved (s : State) : s.raiseIllegal.statusReserved = s.statusReserved := by
  have hone : (0x0001 : BitVec 16).extractLsb' 1 15 = 0#15 := by decide
  rw [State.statusReserved, raiseIllegal_status, BitVec.extractLsb'_or, hone, BitVec.or_zero, State.statusReserved]

/-- If a command other than CLEAR_STATUS answers next, no effect it can have reaches STATUS. -/
theorem exec_status {i : Instr} {s t : State} (hi : i ≠ .clearStatus) (h : exec i s = .next t) :
    t.status = s.status := by
  cases exec_effect h with
  | clear hc => exact absurd hc hi
  | _ => rfl

/-- Settles O46: the step that accepts an illegal word takes its sample and sets ILL, which leaves the FPW ready for the
next word; of the commands CLEAR_STATUS alone reaches STATUS. -/
theorem illegalCommandSetsIllOnly : Obligations.IllegalCommandSetsIllOnly := by
  refine ⟨fun s p rest why hport hrst hvalid hready hillegal => ?_, fun i s t => exec_status,
    fun s => ⟨s.clearStatus, rfl, clearStatus_status s⟩, resetSequence_status⟩
  refine ⟨_, step_of_accepted_illegal hport hrst hvalid hready hillegal, rfl, raiseIllegal_ill _,
    raiseIllegal_statusReserved _, hready, fun q after j hnext hqrst hqvalid hlegal => ?_⟩
  have hrun := step_of_accepted_legal (s := (s.takeSample p rest).raiseIllegal) hnext hqrst hqvalid hready hlegal
  exact ⟨hrun, fun hnowait => hrun.trans (runCommand_eq hnowait)⟩

end Sys2Proof.Machine

/-! PROOFS. Encoder against decoder (30_encoding.md): a command's fields pass its row's checks and assemble to it, a
legal word and its command's own word agree on what is read, and operands in the format's order give the command back. -/

namespace Sys2Proof

open Sys2Proof.Claims

/-! ### The fields of a command -/

theorem op_fieldsOf (i : Instr) : (fieldsOf i).op = i.opcode.code := by
  cases i <;> rfl

/-- The fields of a command pass the checks of its row: RSV is left 0, FLAG is set in the rows that read it alone, and
a channel fills the low byte of its field (R77). -/
theorem checkFields_fieldsOf (i : Instr) : checkFields i.opcode.format (fieldsOf i) = none := by
  cases i with
  | rgb565 r g b => simp [checkFields, fieldsOf, Instr.opcode, Opcode.format, Opcode.blank]
  | _ => simp [checkFields, fieldsOf, Instr.opcode, Opcode.format, Opcode.blank, Format.readsFlag]

/-- A well-formed command is what its row assembles from its fields: each operand comes back from its field (R74 to
R76). -/
theorem assemble_fieldsOf {i : Instr} (h : i.wellFormed = true) : assemble i.opcode (fieldsOf i) = i := by
  cases i with
  | nop | getWidth | getHeight | getFg | getBg | getAccent | update | clearStatus => rfl
  | fillColor | fill | setFg | setBg | setAccent | setTheme => rfl
  | rgb565 r g b => simp [assemble, fieldsOf, Instr.opcode]
  | setPixel | rectFilled | rectColor | hlineColor | vlineColor | lineColor | drawPixel | drawRect | drawHline
  | drawVline | drawLine | readPixel =>
    simp only [Instr.wellFormed, Bool.and_eq_true] at h
    simp [assemble, fieldsOf, Instr.opcode, field16_toNat, h]

/-- Settles O38: the word's fields are the command's, their OP selects its row, and they pass that row's checks. -/
theorem decodeOfEncode : Obligations.DecodeOfEncode := by
  intro i h
  have ho : Opcode.ofCode (opOf (encode i)) = some i.opcode := by
    rw [show opOf (encode i) = (unpack (encode i)).op from rfl, unpack_encode, op_fieldsOf, ofCode_code]
  rw [decode_of_ofCode_some ho, unpack_encode, checkFields_fieldsOf, Option.elim, assemble_fieldsOf h]

/-! ### A word and its command's own word -/

/-- The field table of R71 covers the word: a word is known from its fields. -/
theorem unpack_injective {w v : Command} (h : unpack w = unpack v) : w = v := by
  obtain ⟨hop, hflag, hrsv, hcolor, ha, hb, hc, hd⟩ := Fields.mk.inj h
  refine BitVec.eq_of_getLsbD_eq fun i hi => ?_
  have field {start len : Nat} (he : w.extractLsb' start len = v.extractLsb' start len) (hlo : start ≤ i)
      (hhi : i < start + len) : w.getLsbD i = v.getLsbD i := by
    have hbit := congrArg (BitVec.getLsbD · (i - start)) he
    have hlen : i - start < len := by omega
    simpa only [BitVec.getLsbD_extractLsb', hlen, decide_true, Bool.true_and, Nat.add_sub_cancel' hlo] using hbit
  by_cases h0 : i < 8
  · exact field hop (by omega) (by omega)
  by_cases h1 : i = 8
  · exact h1 ▸ hflag
  by_cases h2 : i < 16
  · exact field hrsv (by omega) (by omega)
  by_cases h3 : i < 32
  · exact field hcolor (by omega) (by omega)
  by_cases h4 : i < 48
  · exact field ha (by omega) (by omega)
  by_cases h5 : i < 64
  · exact field hb (by omega) (by omega)
  by_cases h6 : i < 80
  · exact field hc (by omega) (by omega)
  · exact field hd (by omega) (by omega)

/-- The fields of a word under a mask, field by field. -/
def Fields.mask (f m : Fields) : Fields :=
  ⟨f.op &&& m.op, f.flag && m.flag, f.rsv &&& m.rsv, f.color &&& m.color, f.a &&& m.a, f.b &&& m.b, f.c &&& m.c,
    f.d &&& m.d⟩

theorem unpack_and (w m : Command) : unpack (w &&& m) = (unpack w).mask (unpack m) := by
  simp only [unpack, Fields.mask, BitVec.extractLsb'_and, BitVec.getLsbD_and]

/-- OP, FLAG and RSV, and of the other fields those that a format reads: the pattern table of R72, by format. -/
def Format.readMask : Format → Fields
  | .n | .f => ⟨0xFF, true, 0x7F, 0, 0, 0, 0, 0⟩
  | .k => ⟨0xFF, true, 0x7F, 0xFFFF, 0, 0, 0, 0⟩
  | .pxc => ⟨0xFF, true, 0x7F, 0xFFFF, 0xFFFF, 0xFFFF, 0, 0⟩
  | .px | .pxf => ⟨0xFF, true, 0x7F, 0, 0xFFFF, 0xFFFF, 0, 0⟩
  | .lnc => ⟨0xFF, true, 0x7F, 0xFFFF, 0xFFFF, 0xFFFF, 0xFFFF, 0⟩
  | .lnf | .rgb | .thm => ⟨0xFF, true, 0x7F, 0, 0xFFFF, 0xFFFF, 0xFFFF, 0⟩
  | .rwc | .ppc => ⟨0xFF, true, 0x7F, 0xFFFF, 0xFFFF, 0xFFFF, 0xFFFF, 0xFFFF⟩
  | .ppf => ⟨0xFF, true, 0x7F, 0, 0xFFFF, 0xFFFF, 0xFFFF, 0xFFFF⟩

theorem unpack_readBits (o : Opcode) : unpack (readBits o.code) = o.format.readMask := by
  cases o <;> decide

/-- All that a format's checks guarantee (R77). -/
theorem checkFields_eq_none {fmt : Format} {f : Fields} (h : checkFields fmt f = none) :
    f.rsv = 0 ∧ (fmt.readsFlag = false → f.flag = false) ∧
      (fmt = .rgb → highByte f.a = 0 ∧ highByte f.b = 0 ∧ highByte f.c = 0) := by
  have hn : ¬ ∃ why, checkFields fmt f = some why := by simp [h]
  rw [exists_checkFields_eq_some_iff] at hn
  push Not at hn
  obtain ⟨hrsv, hflag, hrgb⟩ := hn
  refine ⟨hrsv, fun hr => ?_, hrgb⟩
  cases hf : f.flag with
  | false => rfl
  | true => exact absurd hr (hflag hf)

@[simp] theorem field16_toNat_self (v : BitVec 16) : field16 v.toNat = v := by
  simp [field16]

/-- A field whose high byte is 0 is its low byte widened (R76, R77). -/
theorem setWidth_lowByte {v : BitVec 16} (h : highByte v = 0) : (lowByte v).setWidth 16 = v := by
  have hsplit : v = highByte v ++ lowByte v := (Machine.hiByte_append_loByte v).symm
  rw [h] at hsplit
  conv_rhs => rw [hsplit]
  exact (BitVec.setWidth_eq_append (by decide)).trans rfl

/-- The fields of the command that a row assembles are those it was assembled from, up to the fields that the row does
not read. -/
theorem fieldsOf_assemble_mask {o : Opcode} {f : Fields} (hop : f.op = o.code)
    (hc : checkFields o.format f = none) :
    (fieldsOf (assemble o f)).mask o.format.readMask = f.mask o.format.readMask := by
  obtain ⟨hrsv, hflag, hrgb⟩ := checkFields_eq_none hc
  cases o with
  | rgb565 =>
    obtain ⟨ha, hb, hcc⟩ := hrgb rfl
    simp [assemble, fieldsOf, Opcode.blank, Fields.mask, Opcode.format, Format.readMask, hop, hrsv, hflag rfl,
      setWidth_lowByte, ha, hb, hcc]
  | drawPixel | fill | drawRect | drawHline | drawVline | drawLine =>
    simp [assemble, fieldsOf, Opcode.blank, Fields.mask, Opcode.format, Format.readMask, hop, hrsv]
  | _ => simp [assemble, fieldsOf, Opcode.blank, Fields.mask, Opcode.format, Format.readMask, hop, hrsv, hflag rfl]

theorem fits16_toNat (v : BitVec 16) : fits16 v.toNat = true := decide_eq_true v.isLt

theorem wellFormed_assemble (o : Opcode) (f : Fields) : (assemble o f).wellFormed = true := by
  cases o <;> simp [assemble, Instr.wellFormed, fits16_toNat]

/-- Settles O39: the word passed the checks of its row, so on the fields that the row reads its command's own word has
the same values. -/
theorem encodeOfDecode : Obligations.EncodeOfDecode := by
  intro w i h
  rcases decode_cases w with ⟨-, hd⟩ | ⟨o, why, -, -, hd⟩ | ⟨o, ho, hc, hd⟩ <;> rw [hd] at h
  · cases h
  · cases h
  · obtain rfl := Decoded.legal.inj h
    have hop : (unpack w).op = o.code := (code_of_ofCode ho).symm
    refine ⟨wellFormed_assemble o _, unpack_injective ?_⟩
    rw [unpack_and, unpack_and, unpack_encode, show opOf w = o.code from hop, unpack_readBits,
      fieldsOf_assemble_mask hop hc]

/-- Settles O42: encoder and decoder run on the spec's own examples. -/
theorem workedEncodings : Obligations.WorkedEncodings := by
  unfold Obligations.WorkedEncodings
  decide

/-! ### Assembly (R82, R83) -/

namespace Machine

@[simp] theorem coord_number {n : Nat} (h : fits16 n = true) : (Operand.number n).coord = some n := if_pos h

@[simp] theorem color_number (k : Color) : (Operand.number k.toNat).color = some k := by
  simp [Operand.color, fits16_toNat]

@[simp] theorem channel_number (v : Byte) : (Operand.number v.toNat).channel = some v := by
  simp [Operand.channel, v.isLt]

@[simp] theorem flag_number (on : Bool) : (Operand.number on.toNat).flag = some on := by
  cases on <;> rfl

theorem commandOf_operandsOf {i : Instr} (h : i.wellFormed = true) : commandOf i.opcode (operandsOf i) = some i := by
  cases i with
  | nop | getWidth | getHeight | getFg | getBg | getAccent | update | clearStatus => rfl
  | fillColor | fill | setFg | setBg | setAccent | setTheme | rgb565 =>
    simp [Instr.opcode, operandsOf, commandOf]
  | setPixel | rectFilled | rectColor | hlineColor | vlineColor | lineColor | drawPixel | drawRect | drawHline
  | drawVline | drawLine | readPixel =>
    simp only [Instr.wellFormed, Bool.and_eq_true] at h
    simp [Instr.opcode, operandsOf, commandOf, h]

/-- Settles O43: each operand is read back from its number, and the three expansions are the table's. -/
theorem assemblyGivesTheCommandBack : Obligations.AssemblyGivesTheCommandBack := by
  refine ⟨fun i => commandOf_operandsOf, rfl, rfl, fun x y hx hy => ?_⟩
  simp [Pseudo.expand, hx, hy]

end Machine
end Sys2Proof

/-! PROOFS. The reset sequence leaves the state right after reset (R261 to R263), and with it the invariant: it holds
at reset, and every effect a step can have keeps it. -/

namespace Sys2Proof.Machine

open Sys2Proof.Claims

/-! ### What reset leaves -/

theorem read_of_within {n a : Nat} {m : Memory} (h : m.within n = true) (ha : n ≤ a) : m.read a = Memory.unlisted := by
  induction m with
  | nil => rfl
  | cons c m ih =>
    obtain ⟨k, b⟩ := c
    simp only [Memory.within, List.all_cons, Bool.and_eq_true, decide_eq_true_eq] at h
    rw [read_cell, if_neg (by omega)]
    split
    · rfl
    · exact ih h.2

theorem byteOf_zero (a : Nat) : byteOf 0x0000 a = Memory.unlisted := by
  unfold byteOf
  split <;> decide

/-- Filling a buffer with colour 0 leaves no byte listed: the bytes inside read 0 now, those outside always did. -/
theorem fb_fillAll_zero {s : State} (hwf : s.fb.wf = true) (hin : s.fb.within s.cfg.fbBytes = true) :
    (s.fillAll 0x0000).fb = [] := by
  refine memory_ext (fb_wf_fillAll hwf _) (wfFrom_nil 0) fun a => (byte_fillAll hwf 0x0000 a).trans ?_
  split
  · exact byteOf_zero a
  · next ha => exact read_of_within hin (Nat.le_of_not_lt ha)

theorem readBytes_nil (a n : Nat) : Memory.readBytes [] a n = List.replicate n 0x00 := by
  rw [readBytes_eq_map, show Memory.read [] = Function.const Nat 0x00 from rfl, List.map_const, List.length_range']

/-- From a canonical FB inside the buffer the reset sequence makes the state right after reset, the inputs aside (R41,
R261). -/
theorem resetSequence_eq {s : State} (hwf : s.fb.wf = true) (hin : s.fb.within s.cfg.fbBytes = true) :
    s.resetSequence = { State.resetWith s.cfg with txReady := s.txReady, port := s.port } := by
  have hfb := fb_fillAll_zero hwf hin
  have htx : (s.fillAll 0x0000).flushEvents.cons .panelInit = (State.resetWith s.cfg).tx := by
    simp only [State.flushEvents, hfb, readBytes_nil]
    rfl
  calc s.resetSequence
      = { State.resetWith s.cfg with
          fb := (s.fillAll 0x0000).fb, tx := (s.fillAll 0x0000).flushEvents.cons .panelInit,
          txReady := s.txReady, port := s.port } := rfl
    _ = _ := by rw [hfb, htx]; rfl

/-! ### The invariant -/

/-- Settles O56: TX is the reset flush and no other. -/
theorem invariantHoldsAtReset : Obligations.InvariantHoldsAtReset := by
  have hinv (c : Config) : (State.resetWith c).Inv :=
    ⟨rfl, rfl, by simp, ⟨[], by simp, rfl⟩, rfl⟩
  exact ⟨hinv _, hinv⟩

namespace State.Inv

variable {s : State}

theorem takeSample (h : s.Inv) (p : PortSample) (rest : List PortSample) : (s.takeSample p rest).Inv :=
  ⟨h.fbCanonical, h.fbInside, h.statusReservedZero, h.txWhole, h.ready⟩

theorem resetSequence (h : s.Inv) : s.resetSequence.Inv := by
  rw [resetSequence_eq h.fbCanonical h.fbInside]
  exact (invariantHoldsAtReset.2 s.cfg).takeSample ⟨false, false, 0, s.txReady⟩ s.port

theorem raiseIllegal (h : s.Inv) : s.raiseIllegal.Inv := by
  refine ⟨h.fbCanonical, h.fbInside, ?_, h.txWhole, h.ready⟩
  rw [raiseIllegal_status, BitVec.and_comm, BitVec.and_or_distrib_left, BitVec.and_comm, h.statusReservedZero]
  rfl

/-- A flush appends whole events with a payload of FB_BYTES bytes (R191, R193). -/
theorem flush (h : s.Inv) : (s.emit s.flushEvents).Inv := by
  refine ⟨h.fbCanonical, h.fbInside, h.statusReservedZero, ?_, h.ready⟩
  obtain ⟨payloads, hlen, htx⟩ := h.txWhole
  refine ⟨payloads ++ [s.fb.readBytes 0 s.cfg.fbBytes], fun p hp => ?_, ?_⟩
  · rcases List.mem_append.1 hp with hp | hp
    · exact hlen p hp
    · rw [List.mem_singleton.1 hp]
      exact length_readBytes ..
  · rw [emit_tx, htx, List.cons_append, ← List.cons_append (a := List.replicate _ _), List.flatMap_append,
      List.flatMap_singleton]
    rfl

/-- Every effect a command can have keeps the invariant. -/
theorem exec {i : Instr} {t : State} (h : s.Inv) (he : Machine.exec i s = .next t) : t.Inv := by
  cases exec_effect he with
  | plot _ ps k =>
    exact ⟨fb_wf_plotAll h.fbCanonical ps k, fb_within_plotAll h.fbInside ps k, h.statusReservedZero, h.txWhole,
      h.ready⟩
  | fill _ k =>
    exact ⟨fb_wf_fillAll h.fbCanonical k, fb_within_fillAll h.fbInside k, h.statusReservedZero, h.txWhole, h.ready⟩
  | clear => exact ⟨h.fbCanonical, h.fbInside, by simp, h.txWhole, h.ready⟩
  | flush => exact h.flush
  | result | theme | nothing => exact ⟨h.fbCanonical, h.fbInside, h.statusReservedZero, h.txWhole, h.ready⟩

end State.Inv

/-- Settles O55: each way a step can end keeps the invariant. -/
theorem stepKeepsInvariant : Obligations.StepKeepsInvariant := by
  intro s t h hstep
  rcases step_cases hstep with ⟨-, rfl⟩ | ⟨p, rest, -, hedge⟩
  · exact h
  · rcases hedge with ⟨-, q, later, -, rfl⟩ | ⟨-, -, rfl⟩ | ⟨-, -, -, -, rfl⟩ | ⟨-, -, -, i, -, q, later, he⟩
    · exact (h.takeSample q later).resetSequence
    · exact h.takeSample p rest
    · exact (h.takeSample p rest).raiseIllegal
    · exact (h.takeSample q later).exec he

end Sys2Proof.Machine

/-! PROOFS. The lines (43_line.md): the walk's working values in closed form, and from them its count, its ranges, the
special lines and the pixels written (R170 to R176). -/

namespace Sys2Proof.Machine

open Sys2Proof.Claims

/-! ### The trace as iterates -/

/-- The working values after `k` iterations (R172). -/
def lineStep (l : LineSetup) (k : Nat) (p : LineAt) : LineAt := (LineAt.next l)^[k] p

theorem lineStep_zero (l : LineSetup) (p : LineAt) : lineStep l 0 p = p := rfl

theorem lineStep_succ (l : LineSetup) (k : Nat) (p : LineAt) : lineStep l (k + 1) p = (lineStep l k p).next l :=
  Function.iterate_succ_apply' _ _ _

/-- A trace that meets the endpoint in none of its first `n` entries holds the values after `0 .. n` iterations. -/
theorem lineTrace_eq_map {l : LineSetup} : ∀ {n : Nat} {p : LineAt},
    (∀ k < n, (lineStep l k p).atEnd l = false) →
      lineTrace l (n + 1) p = (List.range (n + 1)).map fun k => lineStep l k p := by
  intro n
  induction n with
  | zero => intro p _; simp [lineTrace_succ, lineTrace_zero, lineStep_zero]
  | succ n ih =>
    intro p h
    have hp : p.atEnd l = false := h 0 (Nat.succ_pos n)
    have hrest := ih (p := p.next l) fun k hk => h (k + 1) (Nat.succ_lt_succ hk)
    rw [lineTrace_succ, if_neg (by simp [hp]), hrest, List.range_succ_eq_map (n := n + 1), List.map_cons, List.map_map]
    rfl

/-! ### The invariant of the walk -/

/-- The window that the error term keeps to: on the axis with the longer delta the test holds in every iteration, and
the other axis follows at most half a pixel off the ideal line. -/
def ErrWindow (dx dy err : Int) : Prop :=
  (dx = 0 ∧ dy = 0) ∨
    (dy ≤ dx ∧ dx - 2 * dy ≤ 2 * err ∧ 2 * err < 3 * dx - 2 * dy ∧ -dy < 2 * err) ∨
      (dx < dy ∧ 2 * dx - 3 * dy < 2 * err ∧ 2 * err ≤ 2 * dx - dy ∧ 2 * err < dx)

/-- The working values at the top of iteration `k`, after `i` moves in x and `j` moves in y. -/
structure WalkAt (l : LineSetup) (k : Nat) (i j : Int) (p : LineAt) : Prop where
  x : p.x = l.x1 + i * l.sx
  y : p.y = l.y1 + j * l.sy
  err : p.err = (j + 1) * l.dx - (i + 1) * l.dy
  i_nonneg : 0 ≤ i
  i_le : i ≤ l.dx
  j_nonneg : 0 ≤ j
  j_le : j ≤ l.dy
  index : (k : Int) = if l.dy ≤ l.dx then i else j
  window : ErrWindow l.dx l.dy p.err

theorem errWindow_start {dx dy : Int} (hdx : 0 ≤ dx) (hdy : 0 ≤ dy) : ErrWindow dx dy (dx - dy) := by
  unfold ErrWindow
  omega

theorem errWindow_next {dx dy err : Int} (hdx : 0 ≤ dx) (hdy : 0 ≤ dy) (h : ErrWindow dx dy err) :
    ErrWindow dx dy (err - (if 2 * err > -dy then dy else 0) + (if 2 * err < dx then dx else 0)) := by
  unfold ErrWindow at *
  split_ifs <;> omega

/-- One iteration, its tests as propositions (R172). -/
theorem next_eq (l : LineSetup) (p : LineAt) :
    p.next l = ⟨if 2 * p.err > -l.dy then p.x + l.sx else p.x, if 2 * p.err < l.dx then p.y + l.sy else p.y,
      p.err - (if 2 * p.err > -l.dy then l.dy else 0) + (if 2 * p.err < l.dx then l.dx else 0)⟩ := by
  simp only [LineAt.next, decide_eq_true_eq]

namespace WalkAt

variable {l : LineSetup} {k : Nat} {i j : Int} {p : LineAt}

theorem start (hdx : 0 ≤ l.dx) (hdy : 0 ≤ l.dy) : WalkAt l 0 0 0 (lineStart l) where
  x := by simp [lineStart]
  y := by simp [lineStart]
  err := by simp [lineStart]
  i_nonneg := le_refl 0
  i_le := hdx
  j_nonneg := le_refl 0
  j_le := hdy
  index := by simp
  window := errWindow_start hdx hdy

/-- Before the end of the longer axis a move in x stays on the line. -/
theorem i_lt (h : WalkAt l k i j p) (hk : (k : Int) < max l.dx l.dy) (hmove : 2 * p.err > -l.dy) : i < l.dx := by
  have hindex := h.index
  split_ifs at hindex with hmajor
  · omega
  · by_contra hend
    have hi : i = l.dx := le_antisymm h.i_le (by omega)
    have hj : (j + 1) * l.dx ≤ l.dy * l.dx := mul_le_mul_of_nonneg_right (by omega) (le_trans h.i_nonneg h.i_le)
    rw [h.err, hi] at hmove
    linarith [le_trans h.j_nonneg h.j_le]

/-- Before the end of the longer axis a move in y stays on the line. -/
theorem j_lt (h : WalkAt l k i j p) (hk : (k : Int) < max l.dx l.dy) (hmove : 2 * p.err < l.dx) : j < l.dy := by
  have hindex := h.index
  split_ifs at hindex with hmajor
  · by_contra hend
    have hj : j = l.dy := le_antisymm h.j_le (by omega)
    have hi : (i + 1) * l.dy ≤ l.dx * l.dy := mul_le_mul_of_nonneg_right (by omega) (le_trans h.j_nonneg h.j_le)
    rw [h.err, hj] at hmove
    linarith [le_trans h.i_nonneg h.i_le]
  · omega

/-- Before the end of the longer axis an iteration moves along that axis. -/
theorem moves_major (h : WalkAt l k i j p) (hk : (k : Int) < max l.dx l.dy) :
    if l.dy ≤ l.dx then 2 * p.err > -l.dy else 2 * p.err < l.dx := by
  have hwindow := h.window
  unfold ErrWindow at hwindow
  split_ifs <;> omega

theorem next (h : WalkAt l k i j p) (hk : (k : Int) < max l.dx l.dy) :
    WalkAt l (k + 1) (if 2 * p.err > -l.dy then i + 1 else i) (if 2 * p.err < l.dx then j + 1 else j) (p.next l) := by
  have hi := h.i_lt hk
  have hj := h.j_lt hk
  have hmajor := h.moves_major hk
  rw [next_eq]
  refine ⟨?_, ?_, ?_, ?_, ?_, ?_, ?_, ?_, errWindow_next (le_trans h.i_nonneg h.i_le) (le_trans h.j_nonneg h.j_le)
    h.window⟩
  · simp only [h.x]
    split_ifs <;> ring
  · simp only [h.y]
    split_ifs <;> ring
  · dsimp only
    split_ifs <;> linear_combination h.err
  · have := h.i_nonneg
    split_ifs <;> omega
  · have := h.i_le
    split_ifs with hmove
    · exact hi hmove
    · exact this
  · have := h.j_nonneg
    split_ifs <;> omega
  · have := h.j_le
    split_ifs with hmove
    · exact hj hmove
    · exact this
  · have hindex := h.index
    push_cast
    split_ifs at hmajor hindex ⊢ <;> omega

/-- The walk is at most half a pixel off the ideal line, measured across the longer axis. -/
theorem near (h : WalkAt l k i j p) : |2 * (i * l.dy - j * l.dx)| ≤ max l.dx l.dy := by
  have hwindow := h.window
  have herr : 2 * (i * l.dy - j * l.dx) = 2 * l.dx - 2 * l.dy - 2 * p.err := by rw [h.err]; ring
  unfold ErrWindow at hwindow
  rw [herr, abs_le]
  rcases hwindow with ⟨hdx, hdy⟩ | hwindow | hwindow
  · rw [h.err, hdx, hdy]
    simp
  · omega
  · omega

/-- After as many iterations as the longer delta both axes have made all their moves, the shorter because the walk is
near the ideal line. -/
theorem at_end (h : WalkAt l k i j p) (hk : (k : Int) = max l.dx l.dy) : i = l.dx ∧ j = l.dy := by
  have hindex := h.index
  have hnear := abs_le.1 h.near
  have := h.i_le
  have := h.i_nonneg
  have := h.j_le
  have := h.j_nonneg
  split_ifs at hindex with hmajor
  · have hi : i = l.dx := by omega
    refine ⟨hi, le_antisymm h.j_le ?_⟩
    by_contra hlt
    have hle : (j + 1) * l.dx ≤ l.dy * l.dx := mul_le_mul_of_nonneg_right (by omega) (by omega)
    rw [hi, max_eq_left hmajor] at hnear
    nlinarith
  · have hj : j = l.dy := by omega
    refine ⟨le_antisymm h.i_le ?_, hj⟩
    by_contra hlt
    have hle : (i + 1) * l.dy ≤ l.dx * l.dy := mul_le_mul_of_nonneg_right (by omega) (by omega)
    rw [hj, max_eq_right (by omega)] at hnear
    nlinarith

end WalkAt
end Sys2Proof.Machine

/-! PROOFS. The whole walk between two endpoints is its first `max(dx, dy) + 1` entries (R174), and what the statements
about lines say of it. -/

namespace Sys2Proof.Machine

open Sys2Proof.Claims

/-! ### The set-up of two endpoints (R171) -/

theorem absDiff_cast (a b : Nat) : ((absDiff a b : Nat) : Int) = |(a : Int) - b| := by
  unfold absDiff
  rcases le_total a b with h | h
  · rw [abs_of_nonpos (by omega)]
    omega
  · rw [abs_of_nonneg (by omega)]
    omega

/-- The direction of the moves from one coordinate to another (R171). -/
def direction (a b : Nat) : Int := if a < b then 1 else -1

theorem add_absDiff_mul_direction (a b : Nat) : (a : Int) + absDiff b a * direction a b = b := by
  unfold absDiff direction
  split_ifs <;> omega

/-- Moves no more than the delta end between the two coordinates. -/
theorem between_of_moves {a b : Nat} {i : Int} (h0 : 0 ≤ i) (hi : i ≤ absDiff b a) :
    ((min a b : Nat) : Int) ≤ a + i * direction a b ∧ a + i * direction a b ≤ ((max a b : Nat) : Int) := by
  unfold absDiff at hi
  unfold direction
  split_ifs <;> omega

/-- The coordinates between two are those that moves no more than the delta reach. -/
theorem exists_moves_iff {a b p : Nat} :
    (∃ k : Nat, k ≤ absDiff b a ∧ (p : Int) = a + k * direction a b) ↔ min a b ≤ p ∧ p ≤ max a b := by
  constructor
  · rintro ⟨k, hk, hp⟩
    have := between_of_moves (a := a) (b := b) (Int.natCast_nonneg k) (by exact_mod_cast hk)
    omega
  · rintro ⟨hlo, hhi⟩
    refine ⟨absDiff p a, ?_, ?_⟩ <;> unfold absDiff
    · omega
    · unfold direction
      split_ifs <;> omega

theorem direction_mul_cancel {a b : Nat} {i j : Int} (h : i * direction a b = j * direction a b) : i = j := by
  unfold direction at h
  split_ifs at h <;> omega

section Endpoints

variable (x1 y1 x2 y2 : Nat)

/-- The index of the walk's last entry (R174). -/
def lastIndex : Nat := max (absDiff x2 x1) (absDiff y2 y1)

/-- The walk's entry at an index. -/
def lineEntry (k : Nat) : LineAt := lineStep (lineSetup x1 y1 x2 y2) k (lineStart (lineSetup x1 y1 x2 y2))

/-- The walk's invariant for two endpoints. -/
abbrev EntryAt (k : Nat) (i j : Int) (p : LineAt) : Prop := WalkAt (lineSetup x1 y1 x2 y2) k i j p

theorem lastIndex_cast :
    ((lastIndex x1 y1 x2 y2 : Nat) : Int) = max (lineSetup x1 y1 x2 y2).dx (lineSetup x1 y1 x2 y2).dy :=
  Nat.cast_max _ _

theorem lineEntry_succ (k : Nat) :
    lineEntry x1 y1 x2 y2 (k + 1) = (lineEntry x1 y1 x2 y2 k).next (lineSetup x1 y1 x2 y2) := lineStep_succ _ _ _

end Endpoints

variable {x1 y1 x2 y2 : Nat}

theorem exists_entryAt : ∀ {k : Nat}, k ≤ lastIndex x1 y1 x2 y2 →
    ∃ i j, EntryAt x1 y1 x2 y2 k i j (lineEntry x1 y1 x2 y2 k) := by
  intro k
  induction k with
  | zero => exact fun _ => ⟨0, 0, WalkAt.start (Int.natCast_nonneg _) (Int.natCast_nonneg _)⟩
  | succ k ih =>
    intro hk
    obtain ⟨i, j, h⟩ := ih (Nat.le_of_succ_le hk)
    have hlt : (k : Int) < max (lineSetup x1 y1 x2 y2).dx (lineSetup x1 y1 x2 y2).dy := by
      rw [← lastIndex_cast]
      exact_mod_cast hk
    rw [lineEntry_succ]
    exact ⟨_, _, h.next hlt⟩

namespace EntryAt

variable {k : Nat} {i j : Int} {p : LineAt}

theorem x_eq (h : EntryAt x1 y1 x2 y2 k i j p) : p.x = x1 + i * direction x1 x2 := h.x

theorem y_eq (h : EntryAt x1 y1 x2 y2 k i j p) : p.y = y1 + j * direction y1 y2 := h.y

theorem x_between (h : EntryAt x1 y1 x2 y2 k i j p) :
    ((min x1 x2 : Nat) : Int) ≤ p.x ∧ p.x ≤ ((max x1 x2 : Nat) : Int) :=
  h.x_eq ▸ between_of_moves h.i_nonneg h.i_le

theorem y_between (h : EntryAt x1 y1 x2 y2 k i j p) :
    ((min y1 y2 : Nat) : Int) ≤ p.y ∧ p.y ≤ ((max y1 y2 : Nat) : Int) :=
  h.y_eq ▸ between_of_moves h.j_nonneg h.j_le

/-- Entries at one position have made the same moves, so that they are one entry. -/
theorem index_eq_of_position_eq {k' : Nat} {i' j' : Int} {p' : LineAt} (h : EntryAt x1 y1 x2 y2 k i j p)
    (h' : EntryAt x1 y1 x2 y2 k' i' j' p') (hx : p.x = p'.x) (hy : p.y = p'.y) : k = k' := by
  rw [h.x_eq, h'.x_eq] at hx
  rw [h.y_eq, h'.y_eq] at hy
  obtain rfl := direction_mul_cancel (add_left_cancel hx)
  obtain rfl := direction_mul_cancel (add_left_cancel hy)
  exact_mod_cast h.index.trans h'.index.symm

/-- The last entry is at the second endpoint. -/
theorem last (h : EntryAt x1 y1 x2 y2 (lastIndex x1 y1 x2 y2) i j p) : p.x = x2 ∧ p.y = y2 := by
  obtain ⟨hi, hj⟩ := h.at_end (lastIndex_cast ..)
  rw [h.x_eq, h.y_eq, hi, hj]
  exact ⟨add_absDiff_mul_direction x1 x2, add_absDiff_mul_direction y1 y2⟩

end EntryAt

theorem lineEntry_last :
    (lineEntry x1 y1 x2 y2 (lastIndex x1 y1 x2 y2)).x = x2 ∧ (lineEntry x1 y1 x2 y2 (lastIndex x1 y1 x2 y2)).y = y2 := by
  obtain ⟨i, j, h⟩ := exists_entryAt (le_refl (lastIndex x1 y1 x2 y2))
  exact h.last

theorem index_eq_of_lineEntry {k k' : Nat} (hk : k ≤ lastIndex x1 y1 x2 y2) (hk' : k' ≤ lastIndex x1 y1 x2 y2)
    (hx : (lineEntry x1 y1 x2 y2 k).x = (lineEntry x1 y1 x2 y2 k').x)
    (hy : (lineEntry x1 y1 x2 y2 k).y = (lineEntry x1 y1 x2 y2 k').y) : k = k' := by
  obtain ⟨i, j, h⟩ := exists_entryAt hk
  obtain ⟨i', j', h'⟩ := exists_entryAt hk'
  exact h.index_eq_of_position_eq h' hx hy

theorem lineEntry_ne_end {k : Nat} (hk : k < lastIndex x1 y1 x2 y2) :
    ¬ ((lineEntry x1 y1 x2 y2 k).x = x2 ∧ (lineEntry x1 y1 x2 y2 k).y = y2) := by
  rintro ⟨hx, hy⟩
  obtain ⟨hx', hy'⟩ := lineEntry_last (x1 := x1) (y1 := y1) (x2 := x2) (y2 := y2)
  exact hk.ne (index_eq_of_lineEntry hk.le le_rfl (hx.trans hx'.symm) (hy.trans hy'.symm))

/-- The bound that the model gives the walk is where the walk ends by itself (R174; log entry 8). -/
theorem lineWalk_eq (x1 y1 x2 y2 : Nat) :
    lineWalk x1 y1 x2 y2 = (List.range (lastIndex x1 y1 x2 y2 + 1)).map (lineEntry x1 y1 x2 y2) :=
  lineTrace_eq_map fun _ hk => Bool.eq_false_iff.2 fun hend => lineEntry_ne_end hk (atEnd_iff.1 hend)

theorem mem_lineWalk {p : LineAt} :
    p ∈ lineWalk x1 y1 x2 y2 ↔ ∃ k ≤ lastIndex x1 y1 x2 y2, p = lineEntry x1 y1 x2 y2 k := by
  simp only [lineWalk_eq, List.mem_map, List.mem_range, Nat.lt_succ_iff, eq_comm]

theorem getElem?_lineWalk {k : Nat} {p : LineAt} :
    (lineWalk x1 y1 x2 y2)[k]? = some p ↔ k ≤ lastIndex x1 y1 x2 y2 ∧ p = lineEntry x1 y1 x2 y2 k := by
  simp only [lineWalk_eq, List.getElem?_eq_some_iff, List.getElem_map, List.getElem_range, List.length_map,
    List.length_range, Nat.lt_succ_iff, exists_prop, @eq_comm _ p]

theorem head?_lineWalk : (lineWalk x1 y1 x2 y2).head? = some (lineStart (lineSetup x1 y1 x2 y2)) := by
  rw [lineWalk_eq, List.range_succ_eq_map]
  rfl

theorem getLast?_lineWalk :
    (lineWalk x1 y1 x2 y2).getLast? = some (lineEntry x1 y1 x2 y2 (lastIndex x1 y1 x2 y2)) := by
  rw [lineWalk_eq, List.range_succ, List.map_append, List.map_singleton, List.getLast?_concat]

/-! ### The walk's ranges (R173) -/

/-- Settles O23: every entry has made at most `dx` and `dy` moves, and its error is the distance off the ideal line. -/
theorem lineWalkStaysInRange : Obligations.LineWalkStaysInRange := by
  intro x1 y1 x2 y2 p hp
  obtain ⟨k, hk, rfl⟩ := mem_lineWalk.1 hp
  obtain ⟨i, j, h⟩ := exists_entryAt hk
  have hnear := abs_le.1 h.near
  have herr := h.err
  have hx := h.x_between
  have hy := h.y_between
  have hdx : (lineSetup x1 y1 x2 y2).dx = |(x2 : Int) - x1| := absDiff_cast x2 x1
  have hdy : (lineSetup x1 y1 x2 y2).dy = |(y2 : Int) - y1| := absDiff_cast y2 y1
  have hdx0 := abs_nonneg ((x2 : Int) - x1)
  have hdy0 := abs_nonneg ((y2 : Int) - y1)
  have herr' : 2 * (lineEntry x1 y1 x2 y2 k).err =
      2 * |(x2 : Int) - x1| - 2 * |(y2 : Int) - y1| - 2 * (i * |(y2 : Int) - y1| - j * |(x2 : Int) - x1|) := by
    rw [herr, hdx, hdy]
    ring
  rw [hdx, hdy] at hnear
  refine ⟨by omega, by omega, by omega, by omega, fun hx1 hy1 hx2 hy2 => ?_, hx.1, hx.2, hy.1, hy.2⟩
  have hdxlt : |(x2 : Int) - x1| ≤ 65535 := abs_le.2 (by omega)
  have hdylt : |(y2 : Int) - y1| ≤ 65535 := abs_le.2 (by omega)
  exact abs_le.2 (by omega)

/-! ### The points of a line -/

/-- The point of a walk's entry, whose coordinates are not negative (R173). -/
def linePoint (x1 y1 x2 y2 k : Nat) : Point :=
  ((lineEntry x1 y1 x2 y2 k).x.toNat, (lineEntry x1 y1 x2 y2 k).y.toNat)

theorem linePoints_eq (x1 y1 x2 y2 : Nat) :
    linePoints x1 y1 x2 y2 = (List.range (lastIndex x1 y1 x2 y2 + 1)).map (linePoint x1 y1 x2 y2) := by
  rw [linePoints, lineWalk_eq, List.map_map]
  rfl

theorem linePoint_eq_iff {k px py : Nat} (hk : k ≤ lastIndex x1 y1 x2 y2) :
    linePoint x1 y1 x2 y2 k = (px, py) ↔
      (lineEntry x1 y1 x2 y2 k).x = px ∧ (lineEntry x1 y1 x2 y2 k).y = py := by
  obtain ⟨i, j, h⟩ := exists_entryAt hk
  have hx := h.x_between.1
  have hy := h.y_between.1
  rw [linePoint, Prod.mk.injEq]
  omega

theorem mem_linePoints {px py : Nat} :
    (px, py) ∈ linePoints x1 y1 x2 y2 ↔
      ∃ k ≤ lastIndex x1 y1 x2 y2, (lineEntry x1 y1 x2 y2 k).x = px ∧ (lineEntry x1 y1 x2 y2 k).y = py := by
  simp only [linePoints_eq, List.mem_map, List.mem_range, Nat.lt_succ_iff]
  exact exists_congr fun k => and_congr_right fun hk => linePoint_eq_iff hk

theorem linePoint_injective {k k' : Nat} (hk : k ≤ lastIndex x1 y1 x2 y2) (hk' : k' ≤ lastIndex x1 y1 x2 y2)
    (h : linePoint x1 y1 x2 y2 k = linePoint x1 y1 x2 y2 k') : k = k' := by
  obtain ⟨hx, hy⟩ := (linePoint_eq_iff hk).1 h
  obtain ⟨hx', hy'⟩ := (linePoint_eq_iff hk').1 rfl
  exact index_eq_of_lineEntry hk hk' (hx.trans hx'.symm) (hy.trans hy'.symm)

theorem getElem?_linePoints {k : Nat} {q : Point} (h : (linePoints x1 y1 x2 y2)[k]? = some q) :
    k ≤ lastIndex x1 y1 x2 y2 ∧ q = linePoint x1 y1 x2 y2 k := by
  obtain ⟨p, hp, rfl⟩ := Option.map_eq_some_iff.1 ((List.getElem?_map ..).symm.trans h)
  obtain ⟨hk, rfl⟩ := getElem?_lineWalk.1 hp
  exact ⟨hk, rfl⟩

/-- One iteration moves by at most 1 on each axis. -/
theorem abs_next_le (p : LineAt) :
    |(p.next (lineSetup x1 y1 x2 y2)).x - p.x| ≤ 1 ∧ |(p.next (lineSetup x1 y1 x2 y2)).y - p.y| ≤ 1 := by
  have hx : (lineSetup x1 y1 x2 y2).sx = direction x1 x2 := rfl
  have hy : (lineSetup x1 y1 x2 y2).sy = direction y1 y2 := rfl
  rw [next_eq, hx, hy]
  unfold direction
  constructor <;> split_ifs <;> simp

theorem linePoint_succ_near (k : Nat) :
    (linePoint x1 y1 x2 y2 k).1 ≤ (linePoint x1 y1 x2 y2 (k + 1)).1 + 1 ∧
      (linePoint x1 y1 x2 y2 (k + 1)).1 ≤ (linePoint x1 y1 x2 y2 k).1 + 1 ∧
      (linePoint x1 y1 x2 y2 k).2 ≤ (linePoint x1 y1 x2 y2 (k + 1)).2 + 1 ∧
      (linePoint x1 y1 x2 y2 (k + 1)).2 ≤ (linePoint x1 y1 x2 y2 k).2 + 1 := by
  obtain ⟨hx, hy⟩ := abs_next_le (x1 := x1) (y1 := y1) (x2 := x2) (y2 := y2) (lineEntry x1 y1 x2 y2 k)
  rw [← lineEntry_succ, abs_le] at hx hy
  unfold linePoint
  omega

/-- Settles O22: the entries of the walk are at different points, the first and the last at the endpoints, and one
iteration moves by at most 1 on each axis. -/
theorem lineWalkCountsItsPoints : Obligations.LineWalkCountsItsPoints := by
  intro x1 y1 x2 y2
  refine ⟨?_, ?_, ?_, ?_, fun k p q hp hq => ?_⟩
  · simp only [linePoints_eq, List.length_map, List.length_range]
    rfl
  · rw [linePoints_eq]
    exact List.Nodup.map_on (fun k hk k' hk' => linePoint_injective (Nat.lt_succ_iff.1 (List.mem_range.1 hk))
      (Nat.lt_succ_iff.1 (List.mem_range.1 hk'))) List.nodup_range
  · rw [linePoints, List.head?_map, head?_lineWalk]
    rfl
  · rw [linePoints, List.getLast?_map, getLast?_lineWalk]
    exact congrArg some ((linePoint_eq_iff le_rfl).2 lineEntry_last)
  · obtain ⟨hk, rfl⟩ := getElem?_linePoints hp
    obtain ⟨hk', rfl⟩ := getElem?_linePoints hq
    refine ⟨?_, linePoint_succ_near k⟩
    by_contra hsame
    have heq : linePoint x1 y1 x2 y2 k = linePoint x1 y1 x2 y2 (k + 1) := Prod.ext (by tauto) (by tauto)
    exact absurd (linePoint_injective hk hk' heq) (Nat.ne_of_lt (Nat.lt_succ_self k))

/-! ### Special lines (R175) -/

/-- The points of a line whose entry `k` has made `a k` moves in x and `b k` moves in y. -/
theorem mem_linePoints_of_moves {a b : Nat → Int} {px py : Nat}
    (h : ∀ {k : Nat} {i j : Int} {p : LineAt}, EntryAt x1 y1 x2 y2 k i j p → i = a k ∧ j = b k) :
    (px, py) ∈ linePoints x1 y1 x2 y2 ↔ ∃ k ≤ lastIndex x1 y1 x2 y2,
      (px : Int) = x1 + a k * direction x1 x2 ∧ (py : Int) = y1 + b k * direction y1 y2 := by
  rw [mem_linePoints]
  refine exists_congr fun k => and_congr_right fun hk => ?_
  obtain ⟨i, j, he⟩ := exists_entryAt hk
  obtain ⟨rfl, rfl⟩ := h he
  rw [he.x_eq, he.y_eq, eq_comm, @eq_comm Int _ py]

theorem absDiff_self (a : Nat) : absDiff a a = 0 := by simp [absDiff]

theorem mem_linePoints_horizontal {y px py : Nat} :
    (px, py) ∈ linePoints x1 y x2 y ↔ py = y ∧ min x1 x2 ≤ px ∧ px ≤ max x1 x2 := by
  have hdy : (lineSetup x1 y x2 y).dy = 0 := congrArg Nat.cast (absDiff_self y)
  have hlast : lastIndex x1 y x2 y = absDiff x2 x1 := by simp [lastIndex, absDiff_self]
  rw [mem_linePoints_of_moves (a := fun k => k) (b := fun _ => 0), hlast, ← exists_moves_iff]
  · simp only [zero_mul, add_zero, Nat.cast_inj]
    tauto
  · intro k i j p he
    have hindex := he.index
    rw [if_pos (by rw [hdy]; exact le_trans he.i_nonneg he.i_le)] at hindex
    exact ⟨hindex.symm, le_antisymm (hdy ▸ he.j_le) he.j_nonneg⟩

theorem mem_linePoints_vertical {x px py : Nat} :
    (px, py) ∈ linePoints x y1 x y2 ↔ px = x ∧ min y1 y2 ≤ py ∧ py ≤ max y1 y2 := by
  have hdx : (lineSetup x y1 x y2).dx = 0 := congrArg Nat.cast (absDiff_self x)
  have hlast : lastIndex x y1 x y2 = absDiff y2 y1 := by simp [lastIndex, absDiff_self]
  rw [mem_linePoints_of_moves (a := fun _ => 0) (b := fun k => k), hlast, ← exists_moves_iff]
  · simp only [zero_mul, add_zero, Nat.cast_inj]
    tauto
  · intro k i j p he
    have hindex := he.index
    have := he.i_nonneg
    have := he.i_le
    have := he.j_nonneg
    have := he.j_le
    split_ifs at hindex <;> omega

theorem mem_linePoints_diagonal {px py : Nat} (hdiag : |(x2 : Int) - x1| = |(y2 : Int) - y1|) :
    (px, py) ∈ linePoints x1 y1 x2 y2 ↔ ∃ k : Nat, (k : Int) ≤ |(x2 : Int) - x1| ∧
      (px : Int) = x1 + k * direction x1 x2 ∧ (py : Int) = y1 + k * direction y1 y2 := by
  have hdelta : absDiff x2 x1 = absDiff y2 y1 := by
    rw [← absDiff_cast, ← absDiff_cast] at hdiag
    exact_mod_cast hdiag
  have hdxy : (lineSetup x1 y1 x2 y2).dy = (lineSetup x1 y1 x2 y2).dx := congrArg Nat.cast hdelta.symm
  have hlast : lastIndex x1 y1 x2 y2 = absDiff x2 x1 := by simp [lastIndex, hdelta]
  rw [mem_linePoints_of_moves (a := fun k => k) (b := fun k => k), hlast, ← absDiff_cast]
  · simp only [Nat.cast_le]
  · intro k i j p he
    have hindex := he.index
    have hnear := abs_le.1 he.near
    have := he.i_nonneg
    have := he.i_le
    have := he.j_nonneg
    have hjle := he.j_le
    rw [hdxy, if_pos le_rfl] at hindex
    rw [hdxy, max_self] at hnear
    rw [hdxy] at hjle
    refine ⟨hindex.symm, ?_⟩
    rw [hindex]
    rcases lt_trichotomy j i with hlt | heq | hgt
    · nlinarith
    · exact heq
    · nlinarith

/-- Settles O24: on a horizontal or vertical line one axis makes no move, and on a diagonal one both make as many. -/
theorem specialLinesAreWhole : Obligations.SpecialLinesAreWhole :=
  ⟨fun _ _ _ _ _ => mem_linePoints_horizontal, fun _ _ _ _ _ => mem_linePoints_vertical,
    fun _ _ _ _ _ _ h => mem_linePoints_diagonal h⟩

/-! ### LINE_COLOR -/

/-- The model's walk is the walk that R171 and R172 describe. -/
theorem isLineWalk_lineWalk (x1 y1 x2 y2 : Nat) : IsLineWalk x1 y1 x2 y2 (lineWalk x1 y1 x2 y2) where
  first := by
    rw [head?_lineWalk, ← absDiff_cast, ← absDiff_cast]
    rfl
  steps k p q hp hq := by
    obtain ⟨-, rfl⟩ := getElem?_lineWalk.1 hp
    obtain ⟨-, rfl⟩ := getElem?_lineWalk.1 hq
    rw [lineEntry_succ, next_eq, ← absDiff_cast, ← absDiff_cast]
    refine ⟨rfl, rfl, rfl⟩
  goesOn k p q hp hq := by
    obtain ⟨-, rfl⟩ := getElem?_lineWalk.1 hp
    exact lineEntry_ne_end (getElem?_lineWalk.1 hq).1
  ends := ⟨_, getLast?_lineWalk, lineEntry_last⟩

theorem mem_linePoints_iff_lineWalk {px py : Nat} :
    (px, py) ∈ linePoints x1 y1 x2 y2 ↔ ∃ p ∈ lineWalk x1 y1 x2 y2, p.x = (px : Int) ∧ p.y = (py : Int) := by
  rw [mem_linePoints]
  constructor
  · rintro ⟨k, hk, hpos⟩
    exact ⟨_, mem_lineWalk.2 ⟨k, hk, rfl⟩, hpos⟩
  · rintro ⟨p, hp, hpos⟩
    obtain ⟨k, hk, rfl⟩ := mem_lineWalk.1 hp
    exact ⟨k, hk, hpos⟩

/-- Settles O21: the row is plain, and the points plotted are those of the walk. -/
theorem lineColorPlotsTheWalk : Obligations.LineColorPlotsTheWalk :=
  ⟨decodesPlain_of_format (o := .lineColor) rfl (by decide), fun _ x1 y1 x2 y2 k hwf =>
    ⟨lineWalk x1 y1 x2 y2, _, isLineWalk_lineWalk x1 y1 x2 y2, rfl,
      paintsExactly_plotAll hwf k fun _ _ _ _ => mem_linePoints_iff_lineWalk.symm⟩⟩

/-- Settles O25: the two lines run through different points, `(1, 0)` on the first alone. -/
theorem endpointOrderMatters : Obligations.EndpointOrderMatters := by
  intro s k hwf hW hH hne
  refine ⟨_, _, rfl, rfl, ?_, ?_, ?_, ?_⟩
  · rw [pix_plotAll hwf (by omega) (by omega), if_pos (by decide)]
  · rwa [pix_plotAll hwf (by omega) (by omega), if_neg (by decide)]
  · rw [pix_plotAll hwf (by omega) (by omega), if_pos (by decide)]
  · rw [pix_plotAll hwf (by omega) (by omega), if_pos (by decide)]

end Sys2Proof.Machine

/-! PROOFS. The framebuffer as a whole: pixels tile it (R23), FB reads back what was written (40_pixel.md), and neither
drawing twice nor the order of the points counts (20_memory.md section 4). -/

namespace Sys2Proof.Machine

open Sys2Proof.Claims

/-- Settles O5: a byte of FB lies in the pixel whose number is half its address. -/
theorem pixelsTileTheFramebuffer : Obligations.PixelsTileTheFramebuffer := by
  refine fun c => ⟨fun x y => pixNumber_lt, fun x y x' y' hx _ hx' _ => pixNumber_inj hx hx', fun a ha => ?_⟩
  have hhalf : a / 2 < c.W * c.H := by unfold Config.fbBytes at ha; omega
  obtain ⟨hx, hy, hnum⟩ := exists_pixNumber hhalf
  refine ⟨_, _, hx, hy, ?_⟩
  unfold pixIndex
  omega

/-- Settles O4: the fill gives every pixel its colour, and of those the plot changes one. -/
theorem fillThenSetThenRead : Obligations.FillThenSetThenRead := by
  intro s c c2 x y hwf hx hy
  have hwf' : (s.fillAll c).fb.wf = true := fb_wf_fillAll hwf c
  have hpix : ((s.fillAll c).plotPixel x y c2).pix x y = c2 :=
    (pix_plotAll hwf' hx hy).trans (if_pos (List.mem_singleton.2 rfl))
  refine ⟨_, _, _, rfl, rfl, rfl, ?_, hpix, fun px py hpx hpy hne => ?_⟩
  · exact (if_pos (inRange_iff.2 ⟨hx, hy⟩)).trans hpix
  · have hother : (px, py) ∉ [(x, y)] := by
      rw [List.mem_singleton, Prod.mk.injEq]
      tauto
    exact ((pix_plotAll hwf' hpx hpy).trans (if_neg hother)).trans (pix_fillAll hwf hpx hpy)

/-! ### Drawing twice -/

theorem paint_paint {m : Memory} {is : List Nat} (k : Color) (hwf : m.wf = true) (his : RisingFrom 0 is) :
    (m.paint k is).paint k is = m.paint k is := by
  have hwf' := wf_paint (k := k) hwf his
  refine memory_ext (wf_paint (k := k) hwf' his) hwf' fun a => ?_
  rw [read_paint a hwf' his, read_paint a hwf his]
  split_ifs <;> rfl

/-- What an explicit-colour command makes of FB is one painting, whatever FB holds. -/
theorem explicitPaint_eq_paint {i : Instr} (hi : isExplicit i = true) (c : Config) :
    ∃ k is, RisingFrom 0 is ∧ ∀ m, explicitPaint i c m = m.paint k is := by
  cases i with
  | fillColor => exact ⟨_, _, risingFrom_range' _ _, fun _ => rfl⟩
  | setPixel | rectFilled | rectColor | hlineColor | vlineColor | lineColor =>
    exact ⟨_, _, risingFrom_plotted _ _, fun _ => rfl⟩
  | _ => cases hi

/-- Settles O19: painting the same pixels again changes no byte. -/
theorem explicitDrawingIsIdempotent : Obligations.ExplicitDrawingIsIdempotent := by
  intro i s t hi hwf h
  obtain rfl := Host.Outcome.next.inj ((exec_of_isExplicit hi s).symm.trans h)
  obtain ⟨k, is, his, hpaint⟩ := explicitPaint_eq_paint hi s.cfg
  have hagain : explicitPaint i s.cfg (explicitPaint i s.cfg s.fb) = explicitPaint i s.cfg s.fb := by
    rw [hpaint, hpaint, paint_paint k hwf his]
  rw [exec_of_isExplicit hi]
  simp only [hagain]

/-! ### The loop over the points -/

theorem plotAll_nil (s : State) (k : Color) : s.plotAll [] k = s := rfl

theorem plotAll_eq_foldl {ps : List Point} {k : Color} : ∀ {s : State}, s.fb.wf = true →
    s.plotAll ps k = ps.foldl (fun t p => t.plotPixel p.1 p.2 k) s := by
  induction ps with
  | nil => intro s _; exact plotAll_nil s k
  | cons p ps ih =>
    intro s hwf
    rw [plotAll_cons hwf, List.foldl_cons]
    exact ih (fb_wf_plotAll hwf _ _)

/-- Which points there are decides what is painted, not their order or how often they come. -/
theorem plotAll_congr {s : State} {ps qs : List Point} {k : Color} (hwf : s.fb.wf = true)
    (h : ∀ p, p ∈ ps ↔ p ∈ qs) : s.plotAll ps k = s.plotAll qs k := by
  have hplotted : ∀ j, j ∈ plotted s.cfg ps ↔ j ∈ plotted s.cfg qs := fun j => by simp only [mem_plotted, h]
  have hfb : (s.plotAll ps k).fb = (s.plotAll qs k).fb := by
    refine memory_ext (fb_wf_plotAll hwf ps k) (fb_wf_plotAll hwf qs k) fun a => ?_
    have hbyte : (s.plotAll ps k).byte a = (s.plotAll qs k).byte a := by
      simp only [byte_plotAll hwf, hplotted]
    exact hbyte
  exact congrArg (fun m : Memory => { s with fb := m }) hfb

/-- Settles O20: the painting is the loop in the list's order, and the reversed list has the same points. -/
theorem plottingIsPlotPixelLoop : Obligations.PlottingIsPlotPixelLoop := by
  intro s ps k hwf
  have hreverse : s.plotAll ps k = s.plotAll ps.reverse k := plotAll_congr hwf fun _ => List.mem_reverse.symm
  exact ⟨plotAll_eq_foldl hwf, hreverse.trans (plotAll_eq_foldl hwf)⟩

/-! ### RGB565 by fields -/

/-- RGB565's word is the channels' high bits one after the other (45_color_theme.md section 1). -/
theorem rgb565_eq_append (r g b : Byte) :
    rgb565 r g b = r.extractLsb' 3 5 ++ g.extractLsb' 2 6 ++ b.extractLsb' 3 5 := by
  refine BitVec.eq_of_getLsbD_eq fun i hi => Eq.trans ?_ BitVec.getLsbD_append.symm
  rw [BitVec.getLsbD_append]
  interval_cases i <;> simp [rgb565]

/-- Settles O32: each channel's field is a part of the appended word. -/
theorem rgb565FieldsAreChannels : Obligations.Rgb565FieldsAreChannels := by
  intro s r g b
  refine ⟨_, rfl, ?_, ?_, ?_⟩ <;> rw [setResult_result, rgb565_eq_append]
  · rw [extract_append_high _ _ (by decide), extract_append_high _ _ (by decide)]
    exact BitVec.extractLsb'_eq_self
  · rw [extract_append_high _ _ (by decide)]
    exact extract_append_low _ _
  · exact extract_append_low _ _

/-! ### The beats of the transport port (R38) -/

theorem eventsFrom_dataBeats : ∀ {bs : List Byte} (acc : List Byte) (r : List TxBeat), bs ≠ [] →
    eventsFrom acc (dataBeats bs ++ r) = .sendData (acc ++ bs) :: eventsFrom [] r := by
  intro bs
  induction bs with
  | nil => intro _ _ h; exact absurd rfl h
  | cons b bs ih =>
    intro acc r _
    cases bs with
    | nil => rfl
    | cons c bs =>
      have hrest := ih (acc ++ [b]) r (List.cons_ne_nil _ _)
      rw [List.append_assoc] at hrest
      exact hrest

/-- The beats of an event, read where no payload is under way, give the event. -/
theorem eventsFrom_beats {e : TxEvent} (he : ∀ bs, e = .sendData bs → bs ≠ []) (r : List TxBeat) :
    eventsFrom [] (e.beats ++ r) = e :: eventsFrom [] r := by
  cases e with
  | sendCommand b => rfl
  | sendData bs => exact eventsFrom_dataBeats [] r (he bs rfl)
  | panelInit => rfl

/-- Settles O30: the beats are read back event by event. -/
theorem beatsCarryTheTrace : Obligations.BeatsCarryTheTrace := by
  intro es
  induction es with
  | nil => intro _; rfl
  | cons e es ih =>
    intro h
    have hrest : eventsFrom [] (beatsOf es) = es := ih fun bs hbs => h bs (List.mem_cons_of_mem _ hbs)
    show eventsFrom [] (beatsOf (e :: es)) = e :: es
    rw [beatsOf, List.flatMap_cons, eventsFrom_beats fun bs hbs => h bs (List.mem_cons.2 (.inl hbs.symm))]
    exact congrArg _ hrest

end Sys2Proof.Machine

/-! PROOFS. What a command keeps, and when it completes: the rules about the whole of the command set (10_state.md
sections 3 and 7, 60_exceptions.md section 1). -/

namespace Sys2Proof.Machine

open Sys2Proof.Claims

/-- A command that does not reach the transport completes, on any transport (R195). -/
theorem exec_completes {i : Instr} (hi : i ≠ .update) (s : State) : ∃ t, exec i s = .next t := by
  cases i with
  | update => exact absurd rfl hi
  | _ => exact ⟨_, rfl⟩

section Effect

variable {i : Instr} {s t : State}

theorem exec_cmdReady (h : exec i s = .next t) : t.cmdReady = s.cmdReady := by
  cases exec_effect h <;> rfl

theorem exec_fb (hexplicit : isExplicit i = false) (hboolean : isBoolean i = false) (h : exec i s = .next t) :
    t.fb = s.fb := by
  cases exec_effect h with
  | plot hi | fill hi => simp [hexplicit, hboolean] at hi
  | _ => rfl

theorem exec_theme (hi : writesTheme i = false) (h : exec i s = .next t) :
    t.fg = s.fg ∧ t.bg = s.bg ∧ t.acc = s.acc := by
  cases exec_effect h with
  | theme hw => rw [hi] at hw; cases hw
  | _ => exact ⟨rfl, rfl, rfl⟩

/-- No legal command changes STATUS, but for CLEAR_STATUS, which makes it 0. -/
theorem exec_status_cases (h : exec i s = .next t) :
    t.status = s.status ∨ (i = .clearStatus ∧ t.status = 0x0000) := by
  cases exec_effect h with
  | clear hi => exact .inr ⟨hi, rfl⟩
  | _ => exact .inl rfl

theorem ill_of_status_zero (h : t.status = 0x0000) : t.ill = false := by
  rw [State.ill, h]
  rfl

theorem statusReserved_of_status_zero (h : t.status = 0x0000) : t.statusReserved = 0 := by
  rw [State.statusReserved, h]
  rfl

theorem exec_ill (h : exec i s = .next t) (hill : s.ill = false) : t.ill = false := by
  rcases exec_status_cases h with hs | ⟨-, hs⟩
  · rw [State.ill, hs]
    exact hill
  · exact ill_of_status_zero hs

theorem exec_statusReserved (h : exec i s = .next t) (hres : s.statusReserved = 0) : t.statusReserved = 0 := by
  rcases exec_status_cases h with hs | ⟨-, hs⟩
  · rw [State.statusReserved, hs]
    exact hres
  · exact statusReserved_of_status_zero hs

end Effect

/-- Settles O52: of the effects a command can have, FB is reached by the drawing ones and the theme by the theme's. -/
theorem framebufferAndThemeAreSeparate : Obligations.FramebufferAndThemeAreSeparate :=
  ⟨fun _ _ _ => exec_fb, fun _ _ _ => exec_theme⟩

/-! ### RESULT and ACC are not read -/

theorem exec_with_result {i : Instr} {s t : State} (v : BitVec 16) (h : exec i s = .next t) :
    exec i { s with result := v } = .next (if writesResult i then t else { t with result := v }) := by
  cases i with
  | update =>
    obtain ⟨htx, rfl⟩ := transmitted_next h
    exact exec_update_of_txReady htx
  | _ => obtain rfl := Host.Outcome.next.inj h; rfl

theorem exec_with_acc {i : Instr} {s t : State} (v : Color) (hi : i ≠ .getAccent) (h : exec i s = .next t) :
    exec i { s with acc := v } = .next (if writesAccent i then t else { t with acc := v }) := by
  cases i with
  | getAccent => exact absurd rfl hi
  | update =>
    obtain ⟨htx, rfl⟩ := transmitted_next h
    exact exec_update_of_txReady htx
  | _ => obtain rfl := Host.Outcome.next.inj h; rfl

/-- Settles O54: the registers that a command's effect is made of are, but for GET_ACCENT, neither RESULT nor ACC. -/
theorem resultAndAccentAreNotRead : Obligations.ResultAndAccentAreNotRead :=
  ⟨fun _ _ _ v => exec_with_result v, fun _ _ _ v hi => exec_with_acc v hi⟩

end Sys2Proof.Machine

/-! PROOFS. The step at each kind of sample, with the wait for the transport, and the rules about steps (10_state.md
sections 4, 5, 8 and 9, 60_exceptions.md, 70_reset_and_hazards.md). -/

namespace Sys2Proof.Machine

open Sys2Proof.Claims

/-! ### Reset and UPDATE that wait -/

theorem takeReset_of_txReady {s : State} (htx : s.txReady = true) : takeReset s = .next s.resetSequence :=
  transmitted_of_txReady htx _

theorem transmitted_of_not_txReady {s : State} (htx : s.txReady = false) (t : State) :
    s.transmitted t = .fault .transportStalled :=
  if_neg (by simp [htx])

theorem runReset_of_txReady {s : State} (htx : s.txReady = true) : runReset s = .next s.resetSequence := by
  rw [runReset, if_pos htx, takeReset_of_txReady htx]

section Waiting

variable {s : State} {busy rest : List PortSample} {q : PortSample} (htx : s.txReady = false)
include htx

/-- A reset ends at the first edge at which the transport accepts (R266). -/
theorem runReset_of_accept (hport : s.port = busy ++ q :: rest) (hbusy : ∀ r ∈ busy, r.txReady = false)
    (hq : q.txReady = true) : runReset s = .next (s.takeSample q rest).resetSequence := by
  have huntil : untilAccept s.port = q :: rest := by
    rw [hport, untilAccept_append hbusy]
    exact List.dropWhile_cons_of_neg (by simp [hq])
  rw [runReset, if_neg (by simp [htx]), huntil]
  exact takeReset_of_txReady hq

theorem runReset_stalled (hport : ∀ q ∈ s.port, q.txReady = false) : runReset s = .fault .transportStalled := by
  have huntil : untilAccept s.port = [] := List.dropWhile_eq_nil_iff.2 fun q hq => by simp [hport q hq]
  rw [runReset, if_neg (by simp [htx]), huntil]
  exact transmitted_of_not_txReady htx _

/-- An UPDATE's wait ends at the first edge at which the transport accepts or `rst` is 1 (R244, R264). -/
theorem runUpdate_of_edge (hport : s.port = busy ++ q :: rest)
    (hbusy : ∀ r ∈ busy, r.rst = false ∧ r.txReady = false) (hq : q.rst = true ∨ q.txReady = true) :
    runUpdate s = if q.rst then runReset (s.takeSample q rest) else exec .update (s.takeSample q rest) := by
  have huntil : untilAcceptOrReset s.port = q :: rest := by
    rw [hport, untilAcceptOrReset_append hbusy]
    exact List.dropWhile_cons_of_neg (by rcases hq with hq | hq <;> simp [hq])
  rw [runUpdate, if_neg (by simp [htx]), huntil]

theorem exec_update_stalled : exec .update s = .fault .transportStalled := transmitted_of_not_txReady htx _

theorem runUpdate_stalled (hport : ∀ q ∈ s.port, q.rst = false ∧ q.txReady = false) :
    runUpdate s = .fault .transportStalled := by
  have huntil : untilAcceptOrReset s.port = [] := List.dropWhile_eq_nil_iff.2 fun q hq => by simp [hport q hq]
  rw [runUpdate, if_neg (by simp [htx]), huntil]
  exact exec_update_stalled htx

end Waiting

theorem runCommand_update (s : State) : runCommand .update s = runUpdate s := if_pos rfl

/-! ### The step at a sample -/

section Sample

variable {s : State} {p : PortSample} {rest : List PortSample} (hport : s.port = p :: rest)
include hport

theorem step_of_sample : step s = clockEdge p (s.takeSample p rest) := by
  rw [step, hport]

/-- `rst` wins over any command (R244). -/
theorem step_of_rst (hrst : p.rst = true) : step s = runReset (s.takeSample p rest) := by
  rw [step_of_sample hport, clockEdge, if_pos hrst]

theorem step_of_no_command (hrst : p.rst = false) (hnone : p.cmdValid = false ∨ s.cmdReady = false) :
    step s = .next (s.takeSample p rest) := by
  have hno : ¬ (p.cmdValid && (s.takeSample p rest).cmdReady) = true := by
    rcases hnone with h | h <;> simp [h]
  rw [step_of_sample hport, clockEdge, if_neg (by simp [hrst]), if_neg hno]

theorem step_of_update (hrst : p.rst = false) (hvalid : p.cmdValid = true) (hready : s.cmdReady = true)
    (hdecode : decode p.cmdWord = .legal .update) : step s = runUpdate (s.takeSample p rest) := by
  rw [step_of_accepted_legal hport hrst hvalid hready hdecode, runCommand_update]

end Sample

theorem step_of_port_nil {s : State} (hport : s.port = []) : step s = .next s := by
  rw [step, hport]

/-- Settles O44: the step is the accepted command's run, which waits in no other case than an UPDATE's. -/
theorem stepRunsDecodedCommand : Obligations.StepRunsDecodedCommand := by
  intro s p rest i hport hrst hvalid hready hdecode
  have hrun := step_of_accepted_legal hport hrst hvalid hready hdecode
  exact ⟨hrun, fun hnowait => hrun.trans (runCommand_eq hnowait)⟩

/-- Settles O45: with no command to accept the edge does nothing but take its sample. -/
theorem stepWithoutCommandWaits : Obligations.StepWithoutCommandWaits :=
  ⟨fun _ => step_of_port_nil, fun _ _ _ => step_of_no_command⟩

theorem pix_of_fb_nil {s : State} (hfb : s.fb = []) (x y : Nat) : s.pix x y = 0x0000 := by
  rw [State.pix, Memory.pix, hfb, read_nil, read_nil]
  decide

/-- Settles O47: on an accepting transport the step is the reset sequence, which makes the state right after reset. -/
theorem resetLeavesResetValues : Obligations.ResetLeavesResetValues := by
  constructor
  · intro s p rest hport hrst htx hwf hin
    refine ⟨(s.takeSample p rest).resetSequence,
      (step_of_rst hport hrst).trans (runReset_of_txReady htx), ?_⟩
    rw [resetSequence_eq (s := s.takeSample p rest) hwf hin]
    exact ⟨rfl, fun _ => rfl, rfl, fun x y _ _ => pix_of_fb_nil rfl x y, rfl, rfl, rfl, rfl, rfl, rfl, rfl, rfl⟩
  · intro s p rest hport hrst hready
    exact ⟨_, step_of_no_command hport hrst (.inr hready), rfl⟩

/-- Settles O53: the step is the command's effect, which completes and neither sets ILL nor ends the readiness. -/
theorem legalCommandsAlwaysComplete : Obligations.LegalCommandsAlwaysComplete := by
  intro s p rest i hport hrst hvalid hready hdecode hnowait hill
  have hrun := (step_of_accepted_legal hport hrst hvalid hready hdecode).trans (runCommand_eq hnowait)
  obtain ⟨t, ht⟩ : ∃ t, exec i (s.takeSample p rest) = .next t := by
    by_cases hi : i = .update
    · subst hi
      exact ⟨_, exec_update_of_txReady (hnowait.resolve_left (not_not_intro rfl))⟩
    · exact exec_completes hi _
  exact ⟨t, hrun.trans ht, exec_ill ht hill, (exec_cmdReady ht).trans hready⟩

/-- Settles O29: a wait for the transport that no edge ends is the one fault. -/
theorem stalledTransportStopsOnlyEmitters : Obligations.StalledTransportStopsOnlyEmitters := by
  refine ⟨fun s => exec_update_stalled, fun s p rest hport hrst htx hrest => ?_,
    fun s p rest hport hrst hvalid hready hdecode htx hrest => ?_, fun i s hi => exec_completes hi s⟩
  · rw [step_of_rst hport hrst]
    exact runReset_stalled htx hrest
  · rw [step_of_update hport hrst hvalid hready hdecode]
    exact runUpdate_stalled htx hrest

/-- Settles O57: an illegal word has one effect, a legal one cannot set ILL, and a reset, its sample's own or the one that
ends an UPDATE's wait, is run on the state before the step, of which only the inputs are gone. -/
theorem resetTakesPrecedence : Obligations.ResetTakesPrecedence := by
  refine ⟨fun w v s why why' hw hv => ?_, fun w s t i hdecode haccept hill => ?_,
    fun s p rest v w hport hrst => ?_, fun s p q busy rest hport hrst hvalid hready hdecode htx hbusy hq => ?_⟩
  · have hraise := acceptCommand_of_illegal hw s
    exact ⟨hraise, hraise.trans (acceptCommand_of_illegal hv s).symm⟩
  · have hrun : runCommand i s = .next t := by simpa only [acceptCommand, hdecode] using haccept
    rcases runCommand_next hrun with ⟨q, rest, he⟩ | ⟨-, -, -, q, rest, -, rfl⟩
    · exact exec_ill he hill
    · exact ill_of_status_zero rfl
  · rw [step_of_rst hport hrst]
    exact (step_of_rst (s := { s with port := { p with cmdValid := v, cmdWord := w } :: rest }) rfl hrst).symm
  · rw [step_of_update hport hrst hvalid hready hdecode,
      runUpdate_of_edge (s := s.takeSample p (busy ++ q :: rest)) htx rfl hbusy (.inl hq), if_pos hq]
    exact (step_of_rst (s := { s with port := q :: rest }) rfl hq).symm

theorem takeSample_of_txReady {q : PortSample} (hq : q.txReady = true) (s : State) (rest : List PortSample) :
    s.takeSample q rest = { s with txReady := true, port := rest } := by
  rw [State.takeSample, hq]

/-- Settles O58: the samples before the accepting one are passed over, by reset whatever they carry and by UPDATE if none
of them resets. -/
theorem waitingEndsWhereTheTransportAccepts : Obligations.WaitingEndsWhereTheTransportAccepts := by
  intro s p q busy rest hport htx hbusy hq
  constructor
  · intro hrst
    rw [step_of_rst hport hrst,
      runReset_of_accept (s := s.takeSample p (busy ++ q :: rest)) htx rfl hbusy hq, takeSample_takeSample,
      takeSample_of_txReady hq]
  · intro hrst hvalid hready hdecode hbusyrst hqrst
    have hstep : step s = exec .update { s with txReady := true, port := rest } := by
      rw [step_of_update hport hrst hvalid hready hdecode,
        runUpdate_of_edge (s := s.takeSample p (busy ++ q :: rest)) htx rfl (fun r hr => ⟨hbusyrst r hr, hbusy r hr⟩)
          (.inr hq), if_neg (by simp [hqrst]), takeSample_takeSample, takeSample_of_txReady hq]
    exact ⟨hstep, _, hstep.trans (exec_update_of_txReady rfl), rfl⟩

/-! ### TX and STATUS along a step -/

theorem takeSample_ill (s : State) (p : PortSample) (rest : List PortSample) : (s.takeSample p rest).ill = s.ill :=
  rfl

/-- No payload of a flush is empty: the window's have 4 bytes, and FB has some. -/
theorem ne_nil_of_mem_flushEvents {s : State} {bs : List Byte} (h : .sendData bs ∈ s.flushEvents) : bs ≠ [] := by
  have hpos : 0 < s.cfg.fbBytes := by
    unfold Config.fbBytes
    exact Nat.mul_pos (Nat.mul_pos (config_W_pos _) (config_H_pos _)) (by decide)
  have hframe : s.fb.readBytes 0 s.cfg.fbBytes ≠ [] := List.ne_nil_of_length_pos (by rwa [length_readBytes])
  simp only [State.flushEvents, List.mem_cons, reduceCtorEq, TxEvent.sendData.injEq, false_or, List.not_mem_nil,
    or_false] at h
  rcases h with rfl | rfl | rfl
  · exact List.cons_ne_nil _ _
  · exact List.cons_ne_nil _ _
  · exact hframe

/-- Settles O28: of the ways a step can end, a reset restarts TX, and UPDATE alone of the commands appends to it. -/
theorem txIsAppendOnly : Obligations.TxIsAppendOnly := by
  intro s t h
  rcases step_cases h with ⟨-, rfl⟩ | ⟨p, rest, hport, hedge⟩
  · exact .inl rfl
  rcases hedge with ⟨hreset, q, later, -, rfl⟩ | ⟨-, -, rfl⟩ | ⟨-, -, -, -, rfl⟩ |
    ⟨hrst, hvalid, hready, i, hdecode, q, later, he⟩
  · exact .inr ⟨p, rest, _, hport, fun bs => ne_nil_of_mem_flushEvents, .inr ⟨hreset, rfl⟩⟩
  · exact .inl rfl
  · exact .inl rfl
  · by_cases hi : i = .update
    · subst hi
      obtain ⟨-, rfl⟩ := transmitted_next he
      exact .inr ⟨p, rest, _, hport, fun bs => ne_nil_of_mem_flushEvents, .inl ⟨hrst, hvalid, hready, hdecode, rfl⟩⟩
    · exact .inl ((exec_tx hi he).trans rfl)

/-- Settles O50: of the ways a step can end, an illegal word sets ILL, and a reset or CLEAR_STATUS clears STATUS. -/
theorem statusChangesOnlyAsStated : Obligations.StatusChangesOnlyAsStated := by
  refine ⟨fun s t h hs ht => ?_, fun s t h hs ht => ?_, fun s p rest why hport hrst hvalid hready hdecode => ?_,
    fun s t h hs => ?_, fun c => rfl⟩
  · rcases step_cases h with ⟨-, rfl⟩ | ⟨p, rest, hport, hedge⟩
    · rw [hs] at ht; cases ht
    rcases hedge with ⟨-, q, later, -, rfl⟩ | ⟨-, -, rfl⟩ | ⟨hrst, hvalid, -, ⟨why, hdecode⟩, -⟩ |
      ⟨-, -, -, i, -, q, later, he⟩
    · rw [ill_of_status_zero rfl] at ht; cases ht
    · rw [takeSample_ill, hs] at ht; cases ht
    · exact ⟨p, rest, why, hport, hrst, hvalid, hdecode⟩
    · rw [exec_ill he hs] at ht; cases ht
  · rcases step_cases h with ⟨-, rfl⟩ | ⟨p, rest, hport, hedge⟩
    · rw [hs] at ht; cases ht
    refine ⟨p, rest, hport, ?_⟩
    rcases hedge with ⟨hreset, -⟩ | ⟨-, -, rfl⟩ | ⟨-, -, -, -, rfl⟩ | ⟨hrst, hvalid, -, i, hdecode, q, later, he⟩
    · exact hreset.imp_right .inr
    · rw [takeSample_ill, hs] at ht; cases ht
    · rw [raiseIllegal_ill] at ht; cases ht
    · rcases exec_status_cases he with hstatus | ⟨rfl, -⟩
      · rw [State.ill, hstatus, takeSample_status, ← State.ill, hs] at ht; cases ht
      · exact .inr (.inl ⟨hrst, hvalid, hdecode⟩)
  · exact ⟨_, step_of_accepted_illegal hport hrst hvalid hready hdecode, raiseIllegal_ill _⟩
  · rcases step_cases h with ⟨-, rfl⟩ | ⟨p, rest, -, hedge⟩
    · exact hs
    rcases hedge with ⟨-, q, later, -, rfl⟩ | ⟨-, -, rfl⟩ | ⟨-, -, -, -, rfl⟩ | ⟨-, -, -, i, -, q, later, he⟩
    · exact statusReserved_of_status_zero rfl
    · exact hs
    · exact (raiseIllegal_statusReserved _).trans hs
    · exact exec_statusReserved he hs

end Sys2Proof.Machine
